-- ==== Sys2Proof/Word.lean ====
section
/-! DEFINITION. The word types of the block: cells and 8-bit fields, the 16-bit accumulator and counters, the command word. -/

namespace Sys2Proof

/-- One cell of the packet buffer, an 8-bit register or an 8-bit field (10_state R11, R12). -/
abbrev Byte := BitVec 8

/-- The accumulator ACC and the two error counters (10_state R15, R23). -/
abbrev Word16 := BitVec 16

/-- The command word CMD[17:0] the host presents (30_encoding R51). -/
abbrev CommandWord := BitVec 18

end Sys2Proof
end

