-- ==== Sys2Proof/Syntax.lean ====
section
/-! DEFINITION. The three operations of the block, one constructor for each row of the command table. -/

namespace Sys2Proof

/-- The operations of 30_encoding R50. The buffer PBUF is implicit in all of them. -/
inductive Instr where
  /-- `CRC extra`: the Checksum Engine with the one-byte seed `extra` (40_checksum R72). -/
  | crc (extra : Byte)
  /-- `SWAP ofs, len`: the Byte-Order Adapter on the region of `len` bytes from offset `ofs`;
  the operands are used as natural numbers (30_encoding R53, 41_byteswap R80). -/
  | swap (ofs len : Nat)
  /-- `REPORT`: the Report Builder, no operand (42_report R90). -/
  | report
deriving DecidableEq, Repr

end Sys2Proof
end

