-- ==== Sys2Proof/WellFormed.lean ====
section
/-! DEFINITION. Which instructions the command word can name: the operand ranges of 30_encoding R53. -/

namespace Sys2Proof

/-- The check that a command word can name the operation: `ofs` and `len` are 8-bit fields, `0 .. 255`
(30_encoding R53). The parity of `len` is no matter of well-formedness: a `SWAP` word with an odd length is a
well-formed encoding whose operation is refused (30_encoding R55). -/
def wellFormed (i : Instr) : Bool :=
  match i with
  | .crc _ => true
  | .swap ofs len => Nat.ble ofs 255 && Nat.ble len 255
  | .report => true

/-- The check, as a proposition. -/
abbrev WellFormed (i : Instr) : Prop := wellFormed i = true

end Sys2Proof
end

