-- ==== Sys2Proof/Decode.lean ====
section
/-! DEFINITION. The decoder of the 18-bit command word (30_encoding R51 to R57), the encoder from the same
table, and the decoder read as spec/opcode_table.json numbers a row's bits. -/

namespace Sys2Proof

/-- Why a command word selects no operation: the one reason of 30_encoding R57. -/
inductive DecodeError where
  | reservedEncoding
deriving DecidableEq, Repr

/-- The field `op`, CMD[1:0] (30_encoding R51). -/
def opField (w : CommandWord) : BitVec 2 := w.extractLsb' 0 2

/-- The field `A`, CMD[9:2] (30_encoding R51). -/
def aField (w : CommandWord) : BitVec 8 := w.extractLsb' 2 8

/-- The field `B`, CMD[17:10] (30_encoding R51). -/
def bField (w : CommandWord) : BitVec 8 := w.extractLsb' 10 8

/-- 30_encoding R52: `op` first, then the must-be-zero fields of the selected format. -/
def decode (w : CommandWord) : Except DecodeError Instr :=
  if opField w = 0b01#2 then
    if bField w = 0#8 then .ok (.crc (aField w)) else .error .reservedEncoding
  else if opField w = 0b10#2 then
    .ok (.swap (aField w).toNat (bField w).toNat)
  else if opField w = 0b11#2 then
    if aField w = 0#8 ∧ bField w = 0#8 then .ok .report else .error .reservedEncoding
  else .error .reservedEncoding

/-- The command word of an operation, written as 30_encoding R54, R55 and R56 write it: `B ++ A ++ op`. -/
def encode (i : Instr) : CommandWord :=
  match i with
  | .crc extra => 0#8 ++ extra ++ 0b01#2
  | .swap ofs len => BitVec.ofNat 8 len ++ BitVec.ofNat 8 ofs ++ 0b10#2
  | .report => 0#8 ++ 0#8 ++ 0b11#2

/-- The command word that the table's bits `w`, of which `nbits` are given, stand for: the one word of the
command port, bit 0 its least significant bit (assumption log 18). -/
def tableWord (nbits w : Nat) : CommandWord := BitVec.ofNat 18 (w % 2 ^ nbits)

/-- The instruction the decoder reads from the table's bits; a number that needs more than the 18 bits of a
command (30_encoding R51, R58) is no command word. -/
def decodeTableWord (nbits w : Nat) : Option Instr :=
  if w % 2 ^ nbits < 2 ^ 18 then
    match decode (tableWord nbits w) with
    | .ok i => some i
    | .error _ => none
  else none

end Sys2Proof
end

