-- ==== Sys2Proof/Config.lean ====
section
/-! DEFINITION. The implementation parameters of 00_scope R4. The OPEN ones are constants without a body, shaped
so that every value the spec's constraint admits, and no other, can stand for the parameter (assumption log 1).
The one free value of the model stands here too (assumption log 6). -/

namespace Sys2Proof

/-- The byte order in which the builder first stores a 16-bit field (00_scope R4, 20_memory R36). -/
inductive NativeOrder where
  | little
  | big
deriving DecidableEq, Repr, Inhabited

/-- The parameters the model takes (00_scope R4), those the source leaves open. -/
structure Params where
  /-- `STX`, the start-of-frame marker. -/
  stx : Byte
  /-- `SYSID`, the source system id, a printable character. -/
  sysid : Byte
  /-- `COMPID`, the source component id, a printable character. -/
  compid : Byte
  /-- `MSGID`, the message id of the status report. -/
  msgid : Byte
  /-- `CRC_EXTRA_RS`, the CRC-extra seed constant of the status report. -/
  crcExtraRs : Byte
  /-- `PBUF_CAP`, the capacity of the Working Packet Buffer in bytes. -/
  pbufCap : Nat
  /-- `N_NODES`, the number of entries of each statistics table. -/
  nNodes : Nat
  /-- `SPACE_W`, the width in bits of the transport's available-space count. -/
  spaceW : Nat
  /-- `TXBUF_ENC`, from a space count to the 8-bit transmit-buffer-space field. -/
  txbufEnc : Nat → Byte
  /-- `NATIVE_ORDER`. -/
  nativeOrder : NativeOrder

/-- A byte in the range `0x20` to `0x7E` inclusive (00_scope R4, "Printable character"). -/
abbrev printable (b : Byte) : Prop := 0x20 ≤ b.toNat ∧ b.toNat ≤ 0x7E

/-- The constraints of the parameter table of 00_scope R4. -/
structure Params.Legal (p : Params) : Prop where
  sysid_printable : printable p.sysid
  compid_printable : printable p.compid
  pbufCap_ge : 17 ≤ p.pbufCap
  nNodes_ge : 2 ≤ p.nNodes
  spaceW_ge : 5 ≤ p.spaceW

/-- `STX`: any byte. -/
opaque Config.stx : Byte
/-- Which printable character `SYSID` is, counted from `0x20`. -/
opaque Config.sysidIndex : Fin 95
/-- Which printable character `COMPID` is, counted from `0x20`. -/
opaque Config.compidIndex : Fin 95
/-- `MSGID`: any byte. -/
opaque Config.msgid : Byte
/-- `CRC_EXTRA_RS`: any byte. -/
opaque Config.crcExtraRs : Byte
/-- How far `PBUF_CAP` lies above its least legal value 17. -/
opaque Config.pbufCapAbove : Nat
/-- How far `N_NODES` lies above its least legal value 2. -/
opaque Config.nNodesAbove : Nat
/-- How far `SPACE_W` lies above its least legal value 5. -/
opaque Config.spaceWAbove : Nat
/-- `TXBUF_ENC`: any total function of the count alone (10_state R20, 93 U8). -/
opaque Config.txbufEnc : Nat → Byte
/-- `NATIVE_ORDER`: either order. -/
opaque Config.nativeOrder : NativeOrder

/-- FREE VALUE (assumption log 6). The byte a host read of a cell that is `undef` gives back, of which "this
spec says nothing" (70_reset_and_hazards R141): a function of how many host reads came before and of the offset. -/
opaque Config.undefRead : Nat → Nat → Byte

/-- The printable character number `i`, counted from `0x20`. -/
def printableAt (i : Fin 95) : Byte := BitVec.ofNat 8 (0x20 + i.val)

/-- The parameters of this machine, all of them open. The sums put the open part first, so that a comparison
with a small numeral can be evaluated whatever the open part is. -/
def Config.params : Params where
  stx := Config.stx
  sysid := printableAt Config.sysidIndex
  compid := printableAt Config.compidIndex
  msgid := Config.msgid
  crcExtraRs := Config.crcExtraRs
  pbufCap := Config.pbufCapAbove + 17
  nNodes := Config.nNodesAbove + 2
  spaceW := Config.spaceWAbove + 5
  txbufEnc := Config.txbufEnc
  nativeOrder := Config.nativeOrder

end Sys2Proof
end

