-- ==== Sys2Proof/Machine/State.lean ====
section
/-! DEFINITION. The machine's state as plain data, its reset value, and the reasons a step can stop. -/

namespace Sys2Proof.Machine

/-- The defined cells of PBUF (10_state R12, 20_memory R30) as offset and byte, offsets strictly rising; an
offset that is not listed is `undef`, it has no value (10_state R26). -/
abbrev Memory := List Host.Cell

/-- The canonical form: offsets strictly rising. No entry can equal what an unlisted offset reads as, which is
no value at all. -/
abbrev Memory.wf (m : Memory) : Prop := m.Pairwise (fun c d => c.1 < d.1)

/-- One entry of a statistics table (10_state R19). -/
structure StatEntry where
  /-- "running average signal strength". -/
  rssi : Byte
  /-- "noise floor". -/
  noise : Byte
deriving DecidableEq, Repr

/-- The values the host presents on the input ports for a `REPORT` to sample (10_state R19, R20, R22, R23). -/
structure Inputs where
  /-- `RX_ERRORS` (10_state R23). -/
  rxErrors : Word16
  /-- `CORRECTED` (10_state R23). -/
  corrected : Word16
  /-- `NODE_ID` (10_state R22). -/
  nodeId : Nat
  /-- `STAT`, the local direction (10_state R19). -/
  stat : List StatEntry
  /-- `RSTAT`, the remote direction (10_state R19). -/
  rstat : List StatEntry
  /-- `TX_SPACE` as sampled at step 2 (10_state R20). -/
  s2 : Nat
  /-- `TX_SPACE` as sampled at step 6 (10_state R20); independent of `s2`. -/
  s6 : Nat
deriving DecidableEq, Repr

/-- What the host can do between two operations (70_reset_and_hazards R141). -/
inductive HostMove where
  /-- Present the command word `w` on the command port (10_state R24). -/
  | command (w : CommandWord)
  /-- Write the byte `b` to the cell at offset `a` of PBUF (10_state R25). -/
  | write (a : Nat) (b : Byte)
  /-- Read the cell at offset `a` of PBUF (10_state R25). -/
  | read (a : Nat)
  /-- Present these values on the input ports (70_reset_and_hazards R141), a move of its own before the `REPORT`
  that samples them (DESIGN CHOICE, assumption log 3). -/
  | present (inp : Inputs)
deriving DecidableEq, Repr

/-- Why a host move is none: both stop the model where the spec has no such move, so both are SAFE (assumption
log 7). No operation of the block faults (60_exceptions R110). -/
inductive Fault where
  /-- Raised by a host read or write at or above PBUF_CAP: PBUF has no such cell (10_state R12). Safe. -/
  | noSuchCell
  /-- Raised by presented inputs that the ports cannot carry: a table without exactly N_NODES entries, or a
  space count of more than SPACE_W bits (10_state R19, R20). Safe. -/
  | noSuchInputs
deriving DecidableEq, Repr

/-- Why an operation has no meaning: the closed list of 60_exceptions R111, and the arm of an instruction that
is not modelled. Each is SAFE: a refused operation has no successor state. -/
inductive Refusal where
  /-- An instruction without a meaning in this model; raised by no arm. Safe. -/
  | notModelled (mnemonic : String)
  /-- Raised by the decoder: `op = 00`, or a must-be-zero field is not zero (30_encoding R57). Safe. -/
  | reservedEncoding
  /-- Raised by `CRC` when `PBUF[1] + 8 > PBUF_CAP` and by `SWAP` when `ofs + len > PBUF_CAP` (40 R76, 41 R81). Safe. -/
  | regionOutOfBounds
  /-- Raised by `SWAP` when `len` is odd (41_byteswap R81). Safe. -/
  | oddLength
  /-- Raised by `CRC` and `SWAP` when a cell to be read is `undef` (20_memory R31). Safe. -/
  | unwrittenCell
  /-- Raised by `REPORT` when `NODE_ID >= N_NODES` (42_report R95). Safe. -/
  | indexOutOfTable
deriving DecidableEq, Repr

/-- The state. `seq` and `pbuf` are the block's own (10_state R10); `inputs` is what the host holds on the input
ports; `writes` is the block's output so far; `reads` and `host` are the model's own record of the host. -/
structure State where
  /-- SEQ, the Sequence Counter (10_state R11). -/
  seq : Byte
  /-- PBUF, the Working Packet Buffer (10_state R12). -/
  pbuf : Memory
  /-- What the input ports carry (10_state R19, R20, R22, R23; assumption log 3). -/
  inputs : Inputs
  /-- The transport writes so far, oldest first (00_scope R5, 10_state R21). -/
  writes : List (List Byte)
  /-- The bytes given back to host reads so far, oldest first (assumption log 6). -/
  reads : List Byte
  /-- The host's pending moves, oldest first (assumption log 2). -/
  host : List HostMove
deriving DecidableEq, Repr

/-- What the input ports carry before the host has presented anything: no rule gives it. DESIGN CHOICE: zero
everywhere, tables of N_NODES entries (assumption log 4, unsafe). -/
def Inputs.reset : Inputs where
  rxErrors := 0
  corrected := 0
  nodeId := 0
  stat := List.replicate Config.params.nNodes ⟨0, 0⟩
  rstat := List.replicate Config.params.nNodes ⟨0, 0⟩
  s2 := 0
  s6 := 0

/-- The state right after "process start" (70_reset_and_hazards R130, 10_state R26): SEQ zero, every cell of
PBUF `undef`, nothing written, the block idle. -/
def State.reset : State where
  seq := 0x00
  pbuf := []
  inputs := Inputs.reset
  writes := []
  reads := []
  host := []

end Sys2Proof.Machine
end

