-- ==== Sys2Proof/Machine/Ops.lean ====
section
/-! DEFINITION. The named operations over the state: the fields' updates, the packet buffer's cells, runs of
cells and exchanged pairs, and how an operation on the buffer ends. The block has no exception to take and none
to return from (60_exceptions R110, R115, R117), so there is no operation for either. -/

namespace Sys2Proof.Machine

/-- `SEQ <- v` (00_scope R7). -/
def State.setSeq (s : State) (v : Byte) : State := { s with seq := v }

/-- The state with the buffer `m`. -/
def State.setPbuf (s : State) (m : Memory) : State := { s with pbuf := m }

/-- The state with the values `inp` on the input ports. -/
def State.setInputs (s : State) (inp : Inputs) : State := { s with inputs := inp }

/-- The state with the pending host moves `moves`. -/
def State.setHost (s : State) (moves : List HostMove) : State := { s with host := moves }

/-- `emit Write(bytes)` (00_scope R7): one more transport write at the end of the run's output. -/
def State.pushWrite (s : State) (bytes : List Byte) : State := { s with writes := s.writes ++ [bytes] }

/-- One more byte given back to the host. -/
def State.pushRead (s : State) (b : Byte) : State := { s with reads := s.reads ++ [b] }

/-- `PBUF[a]`, `none` where the cell is `undef` (10_state R26). -/
def Memory.read : Memory → Nat → Option Byte
  | [], _ => none
  | (c, x) :: m, a => if a = c then some x else Memory.read m a

/-- `PBUF[a] <- b`: the cell becomes defined, no other changes (20_memory R31). -/
def Memory.write : Memory → Nat → Byte → Memory
  | [], a, b => [(a, b)]
  | (c, x) :: m, a, b =>
    if a < c then (a, b) :: (c, x) :: m
    else if a = c then (a, b) :: m
    else (c, x) :: Memory.write m a b

/-- `MemRead(a, n)`: the `n` cells from offset `a` upward, `none` if any of them is `undef` (20_memory R31). -/
def Memory.readN (m : Memory) (a : Nat) : Nat → Option (List Byte)
  | 0 => some []
  | n + 1 =>
    match m.read a, Memory.readN m (a + 1) n with
    | some b, some bs => some (b :: bs)
    | _, _ => none

/-- `MemWrite(a, n, v)` with `n` the length of `v`, lowest offset first (20_memory R31). -/
def Memory.writeN (m : Memory) (a : Nat) : List Byte → Memory
  | [] => m
  | b :: bs => Memory.writeN (m.write a b) (a + 1) bs

/-- One round of the adapter's loop: the cells at `a` and `a + 1` change places, through TMP
(41_byteswap R80, 10_state R16); `none` if one of them is `undef`. -/
def Memory.exchange (m : Memory) (a : Nat) : Option Memory :=
  match m.read a, m.read (a + 1) with
  | some tmp, some y => some ((m.write a y).write (a + 1) tmp)
  | _, _ => none

/-- The adapter's loop: `n` pairs from offset `a` upward, in steps of 2 (41_byteswap R80). -/
def Memory.swapPairs (m : Memory) (a : Nat) : Nat → Option Memory
  | 0 => some m
  | n + 1 =>
    match m.exchange a with
    | some m' => Memory.swapPairs m' (a + 2) n
    | none => none

/-- How an operation on the buffer ends: with the new buffer, or refused with no successor state
(60_exceptions R111). -/
def commit (s : State) (r : Except Refusal Memory) : Host.Outcome State Fault Refusal :=
  match r with
  | .ok m => .next (s.setPbuf m)
  | .error e => .refused e

end Sys2Proof.Machine
end

