-- ==== Sys2Proof/Machine/Operands.lean ====
section
/-! DEFINITION. The fixed numbers of the block, the byte halves of a 16-bit value and their order in the buffer,
what the input ports can carry, and the entries of the statistics tables a report selects. -/

namespace Sys2Proof.Machine

/-- `CRC_INIT` (00_scope R4). -/
def crcInit : Word16 := 0xFFFF

/-- `PAYLOAD_LEN` (00_scope R4; 90_conflicts C1), as the byte `REPORT` writes at offset 1. -/
def payloadLen : Byte := 9

/-- `OVERHEAD`, six header bytes and two checksum bytes (00_scope R4). -/
def overhead : Nat := 8

/-- `PKT_LEN` (00_scope R4): 17. -/
def pktLen : Nat := payloadLen.toNat + overhead

/-- `v[7:0]` of a 16-bit value (00_scope R6). -/
def lo8 (v : Word16) : Byte := v.extractLsb' 0 8

/-- `v[15:8]` of a 16-bit value (00_scope R6). -/
def hi8 (v : Word16) : Byte := v.extractLsb' 8 8

/-- A 16-bit value's two bytes in the order in which they stand in the buffer: the wire's order is `little`
(20_memory R34, R35); `big` only for a builder whose native order it is (20_memory R36). -/
def fieldBytes (order : NativeOrder) (v : Word16) : List Byte :=
  match order with
  | .little => [lo8 v, hi8 v]
  | .big => [hi8 v, lo8 v]

/-- `MemWrite16LE(a, w)` (00_scope R7). -/
def Memory.write16LE (m : Memory) (a : Nat) (w : Word16) : Memory := m.writeN a (fieldBytes .little w)

/-- What the ports can carry: tables of N_NODES entries, space counts of SPACE_W bits (10_state R19, R20).
`NODE_ID` may be any natural number; one outside the tables makes `REPORT` refuse (10_state R22). -/
abbrev Inputs.Fits (inp : Inputs) (p : Params) : Prop :=
  inp.stat.length = p.nNodes ∧ inp.rstat.length = p.nNodes ∧ inp.s2 < 2 ^ p.spaceW ∧ inp.s6 < 2 ^ p.spaceW

/-- The four table values a report carries, in the order of their offsets 10, 11, 13, 14 (20_memory R33). -/
structure Selected where
  rssi : Byte
  remrssi : Byte
  noise : Byte
  remnoise : Byte
deriving DecidableEq, Repr

end Sys2Proof.Machine
end

