-- ==== Sys2Proof/Machine/Port.lean ====
section
/-! DEFINITION. The host's side of the block: the next pending move, the decoding of a presented command word,
and the effects of the moves that are no operation (70_reset_and_hazards R141). -/

namespace Sys2Proof.Machine

/-- The host's next move, and the state in which it is made. -/
def State.takeMove (s : State) : Option (HostMove × State) :=
  match s.host with
  | [] => none
  | move :: rest => some (move, s.setHost rest)

/-- What the block does while the host makes no move: nothing (assumption log 8). -/
def portIdle (s : State) : Host.Outcome State Fault Refusal := .next s

/-- The operation a command word asks for; a reserved word is refused (30_encoding R52, R57). -/
def fetchCommand (w : CommandWord) : Except Refusal Instr :=
  match decode w with
  | .ok i => .ok i
  | .error .reservedEncoding => .error .reservedEncoding

/-- The host writes the byte `b` to the cell at offset `a` (10_state R25), for the parameters `p`. -/
def writeCellWith (p : Params) (a : Nat) (b : Byte) (s : State) : Host.Outcome State Fault Refusal :=
  if a < p.pbufCap then .next (s.setPbuf (s.pbuf.write a b)) else .fault .noSuchCell

/-- The byte a host read gives back: the cell's, or a free value where the cell is `undef` (70 R141). -/
def readCell (s : State) (a : Nat) : Byte :=
  match s.pbuf.read a with
  | some b => b
  | none => Config.undefRead s.reads.length a

/-- The host reads the cell at offset `a` (10_state R25), for the parameters `p`. -/
def readCellWith (p : Params) (a : Nat) (s : State) : Host.Outcome State Fault Refusal :=
  if a < p.pbufCap then .next (s.pushRead (readCell s a)) else .fault .noSuchCell

/-- The host presents the values `inp` on the input ports (70 R141; assumption log 3), for the parameters `p`. -/
def presentWith (p : Params) (inp : Inputs) (s : State) : Host.Outcome State Fault Refusal :=
  if inp.Fits p then .next (s.setInputs inp) else .fault .noSuchInputs

/-- The host's write. -/
def hostWrite (a : Nat) (b : Byte) (s : State) : Host.Outcome State Fault Refusal :=
  writeCellWith Config.params a b s

/-- The host's read. -/
def hostRead (a : Nat) (s : State) : Host.Outcome State Fault Refusal := readCellWith Config.params a s

/-- The host's presenting of inputs. -/
def hostPresent (inp : Inputs) (s : State) : Host.Outcome State Fault Refusal :=
  presentWith Config.params inp s

end Sys2Proof.Machine
end

