-- ==== Sys2Proof/Machine/Flags.lean ====
section
/-! DEFINITION. The block has no flag and no condition code (10_state R17). What it has instead of tested flags
are the two data-dependent choices of `REPORT` (42_report R105), computed here from the sampled inputs. -/

namespace Sys2Proof.Machine

/-- The role select: the base is the node identity zero, and nothing else (42_report R95). -/
def isBase (nodeId : Nat) : Bool := nodeId == 0

/-- The gate: the transport has space for the full packet, an unsigned comparison on naturals; exactly
PKT_LEN is enough (42_report R99). -/
def gateOpen (s6 : Nat) : Bool := Nat.ble pktLen s6

end Sys2Proof.Machine
end

