-- ==== Sys2Proof/Machine/ByteSwap.lean ====
section
/-! DEFINITION. The Byte-Order Adapter (41_byteswap): the exchange of adjacent byte pairs of a region, and the
operation `SWAP`. -/

namespace Sys2Proof.Machine

/-- The Byte-Order Adapter on the region of `len` bytes from offset `ofs` (41_byteswap R80): what `SWAP` does and
what `REPORT` does between its steps 4 and 5 where the native order is big (42_report R97). The order of the
tests is 60_exceptions R114's. -/
def adapterStep (p : Params) (ofs len : Nat) (m : Memory) : Except Refusal Memory :=
  if len % 2 = 1 then .error .oddLength
  else if p.pbufCap < ofs + len then .error .regionOutOfBounds
  else
    match m.swapPairs ofs (len / 2) with
    | none => .error .unwrittenCell
    | some m' => .ok m'

/-- The operation `SWAP ofs, len` for the parameters `p`. -/
def swapWith (p : Params) (ofs len : Nat) (s : State) : Host.Outcome State Fault Refusal :=
  commit s (adapterStep p ofs len s.pbuf)

/-- `SWAP ofs, len` (41_byteswap R80). -/
def execSwap (ofs len : Nat) (s : State) : Host.Outcome State Fault Refusal :=
  swapWith Config.params ofs len s

end Sys2Proof.Machine
end

