-- ==== Sys2Proof/Machine/Checksum.lean ====
section
/-! DEFINITION. The Checksum Engine (40_checksum): the per-byte update, the fold, the checksum step over the
buffer, and the operation `CRC`. -/

namespace Sys2Proof.Machine

/-- `crc_step(acc, b)` (40_checksum R70). TMP is 8 bits wide, so the shift of `t0` drops its high bits; the three
terms of the accumulator update are formed at 16 bits (40_checksum R74, 90_conflicts C2). -/
def crcStep (acc : Word16) (b : Byte) : Word16 :=
  let t0 : Byte := b ^^^ lo8 acc
  let t1 : Byte := t0 ^^^ (t0 <<< 4)
  let w : Word16 := t1.setWidth 16
  (hi8 acc).setWidth 16 ^^^ (w <<< 8) ^^^ (w <<< 3) ^^^ (w >>> 4)

/-- `crc_fold(bytes)` (40_checksum R71): ACC starts at CRC_INIT, one `crcStep` for each byte in list order. -/
def crcFold (bytes : List Byte) : Word16 := bytes.foldl crcStep crcInit

/-- The Checksum Engine on the buffer, with `LEN = PBUF[1]` (40_checksum R72, R73): what `CRC` does and what
`REPORT` does at its step 5 (42_report R98). The order of the tests is 60_exceptions R114's. -/
def checksumStep (p : Params) (extra : Byte) (m : Memory) : Except Refusal Memory :=
  match m.read 1 with
  | none => .error .unwrittenCell
  | some l =>
    if p.pbufCap < l.toNat + 8 then .error .regionOutOfBounds
    else
      match m.readN 1 (5 + l.toNat) with
      | none => .error .unwrittenCell
      | some bytes => .ok (m.write16LE (6 + l.toNat) (crcFold (bytes ++ [extra])))

/-- The operation `CRC extra` for the parameters `p`. -/
def crcWith (p : Params) (extra : Byte) (s : State) : Host.Outcome State Fault Refusal :=
  commit s (checksumStep p extra s.pbuf)

/-- `CRC extra` (40_checksum R72). -/
def execCrc (extra : Byte) (s : State) : Host.Outcome State Fault Refusal :=
  crcWith Config.params extra s

end Sys2Proof.Machine
end

