-- ==== Sys2Proof/Machine/Report.lean ====
section
/-! DEFINITION. The Report Builder (42_report): its steps in the order the spec fixes (R90), and the operation
`REPORT`. -/

namespace Sys2Proof.Machine

/-- The indices `(li, ri)` into STAT and RSTAT (42_report R95): a base reads entry 1 of both, a remote its own
entry of STAT and entry 0 of RSTAT. The asymmetry is the spec's. -/
def roleIndices (nodeId : Nat) : Nat × Nat :=
  if isBase nodeId then (1, 1) else (nodeId, 0)

/-- Step 3's values, refused for an identity outside the tables (42_report R95). Tables of N_NODES entries hold
both indices; a shorter table, which no port carries, is refused by the same name (assumption log 17). -/
def roleSelect (p : Params) (inp : Inputs) : Except Refusal Selected :=
  if p.nNodes ≤ inp.nodeId then .error .indexOutOfTable
  else
    match inp.stat[(roleIndices inp.nodeId).1]?, inp.rstat[(roleIndices inp.nodeId).2]? with
    | some l, some r => .ok ⟨l.rssi, r.rssi, l.noise, r.noise⟩
    | _, _ => .error .indexOutOfTable

/-- Step 1: the start marker, the payload length, the sequence number before the increment, and the two source
identities, at offsets 0 to 4 (42_report R91). -/
def writeHeader (p : Params) (seq : Byte) (m : Memory) : Memory :=
  m.writeN 0 [p.stx, payloadLen, seq, p.sysid, p.compid]

/-- Step 2, counters: each stored in the native order at offsets 6 and 8 (42_report R93, R97). -/
def writeCounters (p : Params) (inp : Inputs) (m : Memory) : Memory :=
  (m.writeN 6 (fieldBytes p.nativeOrder inp.rxErrors)).writeN 8 (fieldBytes p.nativeOrder inp.corrected)

/-- Step 2, transmit space: `TXBUF_ENC(S2)` at offset 12 (42_report R94). -/
def writeSpace (p : Params) (inp : Inputs) (m : Memory) : Memory :=
  m.write 12 (p.txbufEnc inp.s2)

/-- Step 3: the role-selected table values at offsets 10, 11, 13 and 14 (42_report R95). -/
def writeSelected (sel : Selected) (m : Memory) : Memory :=
  (((m.write 10 sel.rssi).write 11 sel.remrssi).write 13 sel.noise).write 14 sel.remnoise

/-- Step 4: the message id at offset 5 (42_report R96). -/
def writeMsgid (p : Params) (m : Memory) : Memory := m.write 5 p.msgid

/-- Steps 1 to 4: the header and the payload, the counters still in the native order (42_report R90). -/
def writeFields (p : Params) (inp : Inputs) (sel : Selected) (seq : Byte) (m : Memory) : Memory :=
  writeMsgid p (writeSelected sel (writeSpace p inp (writeCounters p inp (writeHeader p seq m))))

/-- The adapter step: on the region (6, 4) where the native order is big, and skipped where it is little
(42_report R97, 90_conflicts C3). -/
def adaptOrder (p : Params) (m : Memory) : Except Refusal Memory :=
  match p.nativeOrder with
  | .little => .ok m
  | .big => adapterStep p 6 4 m

/-- Steps 1 to 5: the complete frame in the buffer (42_report R90, R98). -/
def buildFrame (p : Params) (inp : Inputs) (sel : Selected) (seq : Byte) (m : Memory) : Except Refusal Memory :=
  match adaptOrder p (writeFields p inp sel seq m) with
  | .error e => .error e
  | .ok m' => checksumStep p p.crcExtraRs m'

/-- Steps 6 and 7: with space for the whole packet, one transport write of its bytes in ascending order; without,
the report is dropped and nothing is recorded (42_report R99, R100). -/
def transmit (s6 : Nat) (s : State) : Host.Outcome State Fault Refusal :=
  if gateOpen s6 then
    match s.pbuf.readN 0 pktLen with
    | some bytes => .next (s.pushWrite bytes)
    | none => .refused .unwrittenCell
  else .next s

/-- The operation `REPORT` for the parameters `p`. The sequence counter advances whether the frame is sent or
dropped (42_report R92); `seq + 1` is `trunc_8`. -/
def reportWith (p : Params) (s : State) : Host.Outcome State Fault Refusal :=
  match roleSelect p s.inputs with
  | .error e => .refused e
  | .ok sel =>
    match buildFrame p s.inputs sel s.seq s.pbuf with
    | .error e => .refused e
    | .ok m => transmit s.inputs.s6 ((s.setSeq (s.seq + 1)).setPbuf m)

/-- `REPORT` (42_report R90). -/
def execReport (s : State) : Host.Outcome State Fault Refusal := reportWith Config.params s

end Sys2Proof.Machine
end

