-- ==== Sys2Proof/Machine/Dispatch.lean ====
section
/-! DEFINITION. One arm for each operation, each one call of its meaning. -/

namespace Sys2Proof.Machine

def exec (i : Instr) (s : State) : Host.Outcome State Fault Refusal :=
  match i with
  | .crc extra => Sys2Proof.Machine.execCrc extra s
  | .swap ofs len => Sys2Proof.Machine.execSwap ofs len s
  | .report => Sys2Proof.Machine.execReport s

end Sys2Proof.Machine
end

