-- ==== Sys2Proof/Machine/Step.lean ====
section
/-! DEFINITION. One step: the host's next move, an operation run to completion or an access of the host's own. -/

namespace Sys2Proof.Machine

/-- One step. The host's next move leaves the list of pending moves and takes effect whole, so that no other move
falls inside an operation (00_scope R5, 10_state R24, 60_exceptions R114). -/
def step (s : State) : Host.Outcome State Fault Refusal :=
  match s.takeMove with
  | none => portIdle s
  | some (.command w, t) =>
    match fetchCommand w with
    | .ok i => exec i t
    | .error e => .refused e
  | some (.write a b, t) => hostWrite a b t
  | some (.read a, t) => hostRead a t
  | some (.present inp, t) => hostPresent inp t

/-- `s` with the command word that the table's bits `w` stand for as the host's next move. The command port is
all that a step fetches from (10_state R24, 20_memory R45; assumption log 18). -/
def State.withFetchWord (s : State) (nbits w : Nat) : State :=
  s.setHost (.command (tableWord nbits w) :: s.host)

end Sys2Proof.Machine
end

