-- ==== Sys2Proof/Safety.lean ====
section
/-! DEFINITION. What counts as a good state and a good frame, in the terms the statements use: defined regions, a
valid checksum, a valid status report, and the invariant of the machine. -/

namespace Sys2Proof.Machine

/-- Every cell of the `n` from offset `a` upward is defined (20_memory R31). -/
def Memory.Defined (m : Memory) (a n : Nat) : Prop := ∀ k, k < n → m.read (a + k) ≠ none

/-- From `s` to `t` nothing but the packet buffer may have changed: not SEQ, no input port, no output, nothing of
the host's (40_checksum R72, 41_byteswap R80, "Reads and writes nothing else"). -/
structure OnlyPbufChanged (s t : State) : Prop where
  seq : t.seq = s.seq
  inputs : t.inputs = s.inputs
  writes : t.writes = s.writes
  reads : t.reads = s.reads
  host : t.host = s.host

/-- One round of the bit-serial update of 40_checksum R75. -/
def bitSerialRound (acc : Word16) : Word16 :=
  if acc.getLsbD 0 then (acc >>> 1) ^^^ 0x8408#16 else acc >>> 1

/-- The bit-serial update of 40_checksum R75: the byte into the low byte of the accumulator, then eight rounds. -/
def bitSerialStep (acc : Word16) (b : Byte) : Word16 :=
  bitSerialRound (bitSerialRound (bitSerialRound (bitSerialRound (bitSerialRound (bitSerialRound
    (bitSerialRound (bitSerialRound (acc ^^^ b.setWidth 16))))))))

/-- "the checksum field is valid" for the seed `extra` (20_memory R44): with `LEN = PBUF[1]`,
`{PBUF[7+LEN], PBUF[6+LEN]} = crc_fold(PBUF[1 .. 5+LEN] ++ [extra])`, every cell read being defined. -/
def Memory.ChecksumValid (m : Memory) (extra : Byte) : Prop :=
  ∃ l bytes, m.read 1 = some l ∧ m.readN 1 (5 + l.toNat) = some bytes ∧
    m.read (6 + l.toNat) = some (lo8 (crcFold (bytes ++ [extra]))) ∧
    m.read (7 + l.toNat) = some (hi8 (crcFold (bytes ++ [extra])))

/-- Bytes f0 to f14 of the wire frame (30_encoding R61): what a report with the sequence number `seq`, the
sampled inputs `inp` and the selected table values `sel` carries before its checksum. -/
def frameBody (p : Params) (inp : Inputs) (sel : Selected) (seq : Byte) : List Byte :=
  [p.stx, 9, seq, p.sysid, p.compid, p.msgid, lo8 inp.rxErrors, hi8 inp.rxErrors, lo8 inp.corrected,
    hi8 inp.corrected, sel.rssi, sel.remrssi, p.txbufEnc inp.s2, sel.noise, sel.remnoise]

/-- The checksum of that frame: `crc_fold([f1, ..., f14] ++ [CRC_EXTRA_RS])` (30_encoding R61). -/
def frameChecksum (p : Params) (inp : Inputs) (sel : Selected) (seq : Byte) : Word16 :=
  crcFold ((frameBody p inp sel seq).drop 1 ++ [p.crcExtraRs])

/-- The 17 bytes f0 to f16 (30_encoding R61). -/
def wireFrame (p : Params) (inp : Inputs) (sel : Selected) (seq : Byte) : List Byte :=
  frameBody p inp sel seq ++ [lo8 (frameChecksum p inp sel seq), hi8 (frameChecksum p inp sel seq)]

/-- A frame that is a status report of this machine (30_encoding R61): 17 bytes, the five constants in place, the
checksum of bytes f1 to f14 and the seed at f15 and f16. -/
structure ValidFrame (p : Params) (f : List Byte) : Prop where
  length_eq : f.length = 17
  stx : f[0]? = some p.stx
  len : f[1]? = some 9
  sysid : f[3]? = some p.sysid
  compid : f[4]? = some p.compid
  msgid : f[5]? = some p.msgid
  ck_lo : f[15]? = some (lo8 (crcFold ((f.drop 1).take 14 ++ [p.crcExtraRs])))
  ck_hi : f[16]? = some (hi8 (crcFold ((f.drop 1).take 14 ++ [p.crcExtraRs])))

/-- The invariant of the machine: the buffer is canonical and inside its capacity (10_state R12), the ports carry
what they can carry (10_state R19, R20), and every transport write so far was a valid status report
(30_encoding R61). -/
structure State.Inv (s : State) : Prop where
  pbuf_wf : s.pbuf.wf
  pbuf_bounded : ∀ a, s.pbuf.read a ≠ none → a < Config.params.pbufCap
  inputs_fit : s.inputs.Fits Config.params
  writes_valid : ∀ f ∈ s.writes, ValidFrame Config.params f

end Sys2Proof.Machine
end

