-- ==== Sys2Proof/Certificates/Slice0/Obligations.lean ====
section
/-! DEFINITION. The statements about the machine, for the provers. Each docstring names the rules of spec/ it
formalises; a clause that rests on a choice of the model names its entry of the assumption log. -/

open Sys2Proof Sys2Proof.Machine

/-! ### Encoding -/

/-- Words of the spec's examples and decoder vectors (30_encoding R54 to R57; 95_test_vectors V-D1 to V-D16). -/
def Obligations.WordsOfTheSpecDecode : Prop :=
  decode 0x00003#18 = .ok .report ∧ decode 0x002E5#18 = .ok (.crc 0xB9#8) ∧
  decode 0x00001#18 = .ok (.crc 0x00#8) ∧ decode 0x003FD#18 = .ok (.crc 0xFF#8) ∧
  decode 0x0101A#18 = .ok (.swap 6 4) ∧ decode 0x00002#18 = .ok (.swap 0 0) ∧
  decode 0x3FFFE#18 = .ok (.swap 255 255) ∧ decode 0x3FBFE#18 = .ok (.swap 255 254) ∧
  decode 0x00000#18 = .error .reservedEncoding ∧ decode 0x00007#18 = .error .reservedEncoding ∧
  decode 0x00401#18 = .error .reservedEncoding ∧ decode 0x3FFFF#18 = .error .reservedEncoding

/-- Decoding the word of a well-formed operation gives it back, for every operand the encoding admits
(30_encoding R51 to R56). -/
def Obligations.DecodeOfEncode : Prop :=
  ∀ i : Instr, WellFormed i → decode (encode i) = .ok i

/-- What a word decodes to is well-formed and encodes to that word, so two different words never decode to the
same operation with the same operands (30_encoding R52). -/
def Obligations.EncodeOfDecode : Prop :=
  ∀ (w : CommandWord) (i : Instr), decode w = .ok i → WellFormed i ∧ encode i = w

/-- The encodings as numbers, their match and mask, and their examples (30_encoding R54, R55, R56); a `SWAP` word
decodes whatever the parity of its length, and only the operation is refused where that is odd. -/
def Obligations.EncodingsAreTheTableRows : Prop :=
  (∀ extra : Byte, (encode (.crc extra)).toNat = extra.toNat * 2 ^ 2 + 1) ∧
  (∀ ofs len : Nat, ofs ≤ 255 → len ≤ 255 →
    (encode (.swap ofs len)).toNat = len * 2 ^ 10 + ofs * 2 ^ 2 + 2 ∧
    decode (encode (.swap ofs len)) = .ok (.swap ofs len)) ∧
  (∀ (ofs len : Nat) (s : State), len % 2 = 1 → exec (.swap ofs len) s = .refused .oddLength) ∧
  (encode .report).toNat = 0x00003 ∧
  (∀ w : CommandWord, w &&& 0x3FC03#18 = 0x00001#18 ↔ ∃ extra, decode w = .ok (.crc extra)) ∧
  (∀ w : CommandWord, w &&& 0x00003#18 = 0x00002#18 ↔ ∃ ofs len, decode w = .ok (.swap ofs len)) ∧
  (∀ w : CommandWord, w &&& 0x3FFFF#18 = 0x00003#18 ↔ decode w = .ok .report) ∧
  encode (.crc 0xB9#8) = 0x002E5#18 ∧ encode (.crc 0x00#8) = 0x00001#18 ∧ encode (.crc 0xFF#8) = 0x003FD#18 ∧
  encode (.swap 6 4) = 0x0101A#18 ∧ encode (.swap 0 0) = 0x00002#18 ∧ encode (.swap 255 254) = 0x3FBFE#18

/-- Exactly the reserved words are refused by the decoder, and a step that is presented one answers no next state
but the refusal ReservedEncoding (30_encoding R57). -/
def Obligations.ReservedWordsRefused : Prop :=
  (∀ w : CommandWord, decode w = .error .reservedEncoding ↔
    w.extractLsb' 0 2 = 0b00#2 ∨
    (w.extractLsb' 0 2 = 0b01#2 ∧ w.extractLsb' 10 8 ≠ 0#8) ∨
    (w.extractLsb' 0 2 = 0b11#2 ∧ (w.extractLsb' 2 8 ≠ 0#8 ∨ w.extractLsb' 10 8 ≠ 0#8))) ∧
  (∀ (s : State) (w : CommandWord) (rest : List HostMove), s.host = .command w :: rest →
    decode w = .error .reservedEncoding → step s = .refused .reservedEncoding)

/-! ### The step and the host's moves -/

/-- A step that is presented a word runs the decoded operation whole, in the state without that move (10_state R24,
30_encoding R52). The second clause, placing a word by `withFetchWord` and reading it by `decodeTableWord`, is the
model's choice and rests on no rule (assumption log 18). -/
def Obligations.StepRunsTheDecodedCommand : Prop :=
  (∀ (s : State) (w : CommandWord) (rest : List HostMove) (i : Instr),
    s.host = .command w :: rest → decode w = .ok i → step s = exec i { s with host := rest }) ∧
  (∀ (s : State) (w : Nat) (i : Instr), w < 2 ^ 18 → decode (BitVec.ofNat 18 w) = .ok i →
    decodeTableWord 18 w = some i ∧ step (s.withFetchWord 18 w) = exec i s)

/-- With no move of the host the state stays as it is: the model's choice (assumption log 8). -/
def Obligations.IdleStepChangesNothing : Prop :=
  ∀ s : State, s.host = [] → step s = .next s

/-- A host write changes the one cell and makes it defined (10_state R25); at or above the capacity there is no
cell, and the model faults (its choice, assumption log 7). -/
def Obligations.HostWriteSetsOneCell : Prop :=
  ∀ (s : State) (a : Nat) (b : Byte) (rest : List HostMove), s.host = .write a b :: rest →
    (a < Config.params.pbufCap → ∃ t, step s = .next t ∧
      (∀ c, t.pbuf.read c = if c = a then some b else s.pbuf.read c) ∧
      t.seq = s.seq ∧ t.inputs = s.inputs ∧ t.writes = s.writes ∧ t.reads = s.reads ∧ t.host = rest) ∧
    (Config.params.pbufCap ≤ a → step s = .fault .noSuchCell)

/-- A host read of a defined cell gives its byte back and changes nothing of the block (10_state R25, 20_memory
R40); of an `undef` cell it gives back some byte, a free value (assumption log 6); at or above the capacity there
is no cell (assumption log 7). -/
def Obligations.HostReadChangesNothing : Prop :=
  ∀ (s : State) (a : Nat) (rest : List HostMove), s.host = .read a :: rest →
    (a < Config.params.pbufCap → ∃ b, step s = .next { s with reads := s.reads ++ [b], host := rest } ∧
      ∀ x, s.pbuf.read a = some x → b = x) ∧
    (Config.params.pbufCap ≤ a → step s = .fault .noSuchCell)

/-- Presented inputs stand on the ports and change nothing of the block: the model's choice, a move of its own
where 70_reset_and_hazards R141 has the host present inputs during the `REPORT` (assumption log 3). Values the ports
cannot carry fault: the model's choice too (assumption log 7). -/
def Obligations.PresentedInputsStandOnThePorts : Prop :=
  ∀ (s : State) (inp : Inputs) (rest : List HostMove), s.host = .present inp :: rest →
    (inp.Fits Config.params → step s = .next { s with inputs := inp, host := rest }) ∧
    (¬ inp.Fits Config.params → step s = .fault .noSuchInputs)

/-! ### The checksum function -/

/-- `crc_step` on naturals, with the shifts unbounded and every truncation written out, its corner cases and its
worked example (40_checksum R70). -/
def Obligations.CrcStepOnNaturals : Prop :=
  (∀ (acc : Word16) (b : Byte),
    let t0 : Nat := b.toNat ^^^ (acc.toNat % 2 ^ 8)
    let t1 : Nat := t0 ^^^ (t0 * 2 ^ 4 % 2 ^ 8)
    (crcStep acc b).toNat =
      (acc.toNat / 2 ^ 8) ^^^ (t1 * 2 ^ 8 % 2 ^ 16) ^^^ (t1 * 2 ^ 3 % 2 ^ 16) ^^^ (t1 / 2 ^ 4)) ∧
  crcStep 0x0000#16 0x00#8 = 0x0000#16 ∧
  (∀ acc : Word16, crcStep acc (acc.extractLsb' 0 8) = acc >>> 8) ∧
  crcStep 0xFFFF#16 0xFF#8 = 0x00FF#16 ∧ crcStep 0xABCD#16 0xCD#8 = 0x00AB#16 ∧
  crcStep 0xFFFF#16 0x00#8 = 0x0F87#16

/-- `crc_step` bit by bit, as the spec derives it from the four terms (40_checksum section 1). -/
def Obligations.CrcStepBitByBit : Prop :=
  ∀ (acc : Word16) (b : Byte),
    let t : Byte := (b ^^^ acc.extractLsb' 0 8) ^^^ ((b ^^^ acc.extractLsb' 0 8) <<< 4)
    (crcStep acc b).extractLsb' 11 5 = t.extractLsb' 3 5 ∧
    (crcStep acc b).extractLsb' 8 3 = t.extractLsb' 0 3 ^^^ t.extractLsb' 5 3 ∧
    (crcStep acc b).getLsbD 7 = (acc.getLsbD 15 ^^ t.getLsbD 4) ∧
    (crcStep acc b).extractLsb' 4 3 = acc.extractLsb' 12 3 ^^^ t.extractLsb' 1 3 ∧
    (crcStep acc b).getLsbD 3 = (acc.getLsbD 11 ^^ t.getLsbD 0 ^^ t.getLsbD 7) ∧
    (crcStep acc b).extractLsb' 0 3 = acc.extractLsb' 8 3 ^^^ t.extractLsb' 4 3

/-- The byte-wise update is the bit-serial one with `0x8408`, for every accumulator and byte, and the fold of the
nine ASCII bytes "123456789" is `0x6F91` (40_checksum section 2, the spec's own derivation). -/
def Obligations.CrcStepIsTheBitSerialUpdate : Prop :=
  (∀ (acc : Word16) (b : Byte), crcStep acc b = bitSerialStep acc b) ∧
  crcFold [0x31#8, 0x32#8, 0x33#8, 0x34#8, 0x35#8, 0x36#8, 0x37#8, 0x38#8, 0x39#8] = 0x6F91#16

/-- The update depends only on the accumulator exclusive-or the byte, and for a fixed byte it is a bijection
(40_checksum section 3, properties (a) and (c) the spec derives). -/
def Obligations.CrcStepBijective : Prop :=
  (∀ (acc : Word16) (b : Byte), crcStep acc b = crcStep (acc ^^^ b.setWidth 16) 0#8) ∧
  (∀ b : Byte, Function.Bijective fun acc : Word16 => crcStep acc b)

/-- Residue: the fold over a list and two more bytes is zero exactly if the two are the list's own checksum, low
byte first, so a receiver may compare or fold (40_checksum section 3, property (d) the spec derives). -/
def Obligations.CrcResidueZeroIffOwnChecksum : Prop :=
  ∀ (d : List Byte) (x y : Byte), crcFold (d ++ [x, y]) = 0x0000#16 ↔
    x = (crcFold d).extractLsb' 0 8 ∧ y = (crcFold d).extractLsb' 8 8

/-! ### CRC -/

/-- With the length cell and the region defined and the frame inside the buffer, `CRC` completes: the checksum of
the region and the seed stands at `6+LEN`, `7+LEN`, and nothing else has changed (40_checksum R71, R72, R73). -/
def Obligations.CrcAppendsTheChecksum : Prop :=
  ∀ (s : State) (extra l : Byte) (bytes : List Byte), s.pbuf.read 1 = some l →
    l.toNat + 8 ≤ Config.params.pbufCap → bytes.length = 5 + l.toNat →
    (∀ k, k < 5 + l.toNat → s.pbuf.read (1 + k) = bytes[k]?) →
    ∃ t, exec (.crc extra) s = .next t ∧
      t.pbuf.read (6 + l.toNat) = some ((crcFold (bytes ++ [extra])).extractLsb' 0 8) ∧
      t.pbuf.read (7 + l.toNat) = some ((crcFold (bytes ++ [extra])).extractLsb' 8 8) ∧
      (∀ a, a ≠ 6 + l.toNat → a ≠ 7 + l.toNat → t.pbuf.read a = s.pbuf.read a) ∧
      OnlyPbufChanged s t

/-- Where a precondition of `CRC` fails it is refused, by the first that fails: the length cell `undef`, then the
frame beyond the buffer, then a cell of the region `undef` (40_checksum R76, 60_exceptions R114). Said for every
capacity, this machine's among them. -/
def Obligations.CrcRefusedWhenPreconditionFails : Prop :=
  ∀ (s : State) (extra : Byte), exec (.crc extra) s = crcWith Config.params extra s ∧
    ∀ p : Params,
      (s.pbuf.read 1 = none → crcWith p extra s = .refused .unwrittenCell) ∧
      (∀ l, s.pbuf.read 1 = some l → p.pbufCap < l.toNat + 8 → crcWith p extra s = .refused .regionOutOfBounds) ∧
      (∀ l, s.pbuf.read 1 = some l → l.toNat + 8 ≤ p.pbufCap →
        (∃ k, k < 5 + l.toNat ∧ s.pbuf.read (1 + k) = none) → crcWith p extra s = .refused .unwrittenCell)

/-- The frame of `CRC`: it stores to the two cells after the region and to nothing else (40_checksum R72). -/
def Obligations.CrcChangesTwoCellsOnly : Prop :=
  ∀ (s t : State) (extra : Byte), exec (.crc extra) s = .next t →
    OnlyPbufChanged s t ∧
    ∃ l, s.pbuf.read 1 = some l ∧
      ∀ a, a ≠ 6 + l.toNat → a ≠ 7 + l.toNat → t.pbuf.read a = s.pbuf.read a

/-- The checksum's low byte stands at the lower offset whatever the parameters, NATIVE_ORDER among them, both
after `CRC` and in a report's frame (20_memory R35). -/
def Obligations.ChecksumLowByteFirst : Prop :=
  ∀ (p : Params) (s t : State), p.Legal →
    (∀ (extra l : Byte) (bytes : List Byte), s.pbuf.read 1 = some l → s.pbuf.readN 1 (5 + l.toNat) = some bytes →
      crcWith p extra s = .next t →
      t.pbuf.read (6 + l.toNat) = some ((crcFold (bytes ++ [extra])).extractLsb' 0 8) ∧
      t.pbuf.read (7 + l.toNat) = some ((crcFold (bytes ++ [extra])).extractLsb' 8 8)) ∧
    (reportWith p s = .next t → ∃ bytes, t.pbuf.readN 1 14 = some bytes ∧
      t.pbuf.read 15 = some ((crcFold (bytes ++ [p.crcExtraRs])).extractLsb' 0 8) ∧
      t.pbuf.read 16 = some ((crcFold (bytes ++ [p.crcExtraRs])).extractLsb' 8 8))

/-- `CRC` is idempotent: the two bytes it writes are outside the region it reads (20_memory section 4). -/
def Obligations.CrcIdempotent : Prop :=
  ∀ (s t : State) (extra : Byte), s.pbuf.wf → exec (.crc extra) s = .next t → exec (.crc extra) t = .next t

/-- Determinism: whether `CRC` completes and which two bytes it writes is a function of the region and the seed
alone; two states that agree on offsets 1 to 5+LEN may differ in everything else (40_checksum R77). -/
def Obligations.CrcDependsOnTheRegionAlone : Prop :=
  ∀ (s s' t : State) (extra l : Byte), s.pbuf.read 1 = some l →
    (∀ k, k < 5 + l.toNat → s'.pbuf.read (1 + k) = s.pbuf.read (1 + k)) →
    exec (.crc extra) s = .next t →
    ∃ t', exec (.crc extra) s' = .next t' ∧
      t'.pbuf.read (6 + l.toNat) = t.pbuf.read (6 + l.toNat) ∧
      t'.pbuf.read (7 + l.toNat) = t.pbuf.read (7 + l.toNat)

/-- After `CRC` the checksum is valid, and it stays valid under any write to offset 0 or above the frame
(20_memory section 5). -/
def Obligations.ChecksumValidAfterCrc : Prop :=
  ∀ (s t : State) (extra : Byte), exec (.crc extra) s = .next t →
    t.pbuf.ChecksumValid extra ∧
    ∀ l, t.pbuf.read 1 = some l → ∀ a b, (a = 0 ∨ 7 + l.toNat < a) → (t.pbuf.write a b).ChecksumValid extra

/-- Hazard H1: a host write that changes one cell of offsets 2 to 7+LEN always leaves a valid checksum invalid
(20_memory section 5, 70_reset_and_hazards section 3). -/
def Obligations.ChangedCellMakesChecksumStale : Prop :=
  ∀ (s t : State) (extra l b b' : Byte) (a : Nat) (rest : List HostMove),
    s.pbuf.ChecksumValid extra → s.pbuf.read 1 = some l → 2 ≤ a → a ≤ 7 + l.toNat →
    s.pbuf.read a = some b → b' ≠ b → s.host = .write a b' :: rest → step s = .next t →
    ¬ t.pbuf.ChecksumValid extra

/-! ### SWAP -/

/-- With an even length, the region inside the buffer and defined, `SWAP` completes: each pair counted from `ofs`
has changed places and nothing else has changed (41_byteswap R80). -/
def Obligations.SwapExchangesEachPair : Prop :=
  ∀ (s : State) (ofs len : Nat), len % 2 = 0 → ofs + len ≤ Config.params.pbufCap → s.pbuf.Defined ofs len →
    ∃ t, exec (.swap ofs len) s = .next t ∧
      (∀ k, k % 2 = 0 → k + 1 < len →
        t.pbuf.read (ofs + k) = s.pbuf.read (ofs + k + 1) ∧ t.pbuf.read (ofs + k + 1) = s.pbuf.read (ofs + k)) ∧
      (∀ a, a < ofs ∨ ofs + len ≤ a → t.pbuf.read a = s.pbuf.read a) ∧
      OnlyPbufChanged s t

/-- A region of length zero is legal wherever it lies inside the buffer, and changes nothing
(41_byteswap section "R80", corner cases). -/
def Obligations.SwapOfLengthZeroChangesNothing : Prop :=
  ∀ (s : State) (ofs : Nat), ofs ≤ Config.params.pbufCap → exec (.swap ofs 0) s = .next s

/-- Where a precondition of `SWAP` fails it is refused, by the first that fails: odd length, region beyond the
buffer, a cell of the region `undef` (41_byteswap R81, 60_exceptions R114). -/
def Obligations.SwapRefusedWhenPreconditionFails : Prop :=
  ∀ (s : State) (ofs len : Nat),
    (len % 2 = 1 → exec (.swap ofs len) s = .refused .oddLength) ∧
    (len % 2 = 0 → Config.params.pbufCap < ofs + len → exec (.swap ofs len) s = .refused .regionOutOfBounds) ∧
    (len % 2 = 0 → ofs + len ≤ Config.params.pbufCap → (∃ k, k < len ∧ s.pbuf.read (ofs + k) = none) →
      exec (.swap ofs len) s = .refused .unwrittenCell)

/-- The frame of `SWAP`: it stores to the region's cells and to nothing else (41_byteswap R80). -/
def Obligations.SwapChangesItsRegionOnly : Prop :=
  ∀ (s t : State) (ofs len : Nat), exec (.swap ofs len) s = .next t →
    OnlyPbufChanged s t ∧ ∀ a, a < ofs ∨ ofs + len ≤ a → t.pbuf.read a = s.pbuf.read a

/-- The same `SWAP` twice leaves every cell as it was; one is in general not the identity; two regions that
overlap with different pairing rotate three bytes (41_byteswap R82). -/
def Obligations.SwapIsAnInvolution : Prop :=
  (∀ (s t : State) (ofs len : Nat), exec (.swap ofs len) s = .next t →
    ∃ u, exec (.swap ofs len) t = .next u ∧ OnlyPbufChanged s u ∧ (∀ a, u.pbuf.read a = s.pbuf.read a) ∧
      (s.pbuf.wf → u = s)) ∧
  (∃ s t : State, exec (.swap 0 2) s = .next t ∧ t.pbuf.read 0 ≠ s.pbuf.read 0) ∧
  (∀ (s : State) (x y z : Byte), s.pbuf.read 6 = some x → s.pbuf.read 7 = some y → s.pbuf.read 8 = some z →
    ∃ t u, exec (.swap 6 2) s = .next t ∧ exec (.swap 7 2) t = .next u ∧
      u.pbuf.read 6 = some y ∧ u.pbuf.read 7 = some z ∧ u.pbuf.read 8 = some x)

/-- `SWAP a, 2` turns a 16-bit field from big-endian to little-endian and the other way round (41_byteswap, the
rule the spec derives last). -/
def Obligations.SwapTurnsA16BitField : Prop :=
  ∀ (s : State) (a : Nat) (v : Word16), a + 2 ≤ Config.params.pbufCap →
    (s.pbuf.read a = some (v.extractLsb' 8 8) → s.pbuf.read (a + 1) = some (v.extractLsb' 0 8) →
      ∃ t, exec (.swap a 2) s = .next t ∧ t.pbuf.read a = some (v.extractLsb' 0 8) ∧
        t.pbuf.read (a + 1) = some (v.extractLsb' 8 8)) ∧
    (s.pbuf.read a = some (v.extractLsb' 0 8) → s.pbuf.read (a + 1) = some (v.extractLsb' 8 8) →
      ∃ t, exec (.swap a 2) s = .next t ∧ t.pbuf.read a = some (v.extractLsb' 8 8) ∧
        t.pbuf.read (a + 1) = some (v.extractLsb' 0 8))

/-! ### REPORT -/

/-- `REPORT` completes for every identity inside the tables: offsets 0 to 16 hold the wire frame with the old
sequence number, the counter has advanced, the frame has been written exactly if at least 17 bytes of space were
sampled at step 6, and nothing else has changed (42_report R90, R102; 30_encoding R61). -/
def Obligations.ReportBuildsTheWireFrame : Prop :=
  ∀ s : State, s.inputs.Fits Config.params → s.inputs.nodeId < Config.params.nNodes →
    ∃ t l r,
      s.inputs.stat[if s.inputs.nodeId = 0 then 1 else s.inputs.nodeId]? = some l ∧
      s.inputs.rstat[if s.inputs.nodeId = 0 then 1 else 0]? = some r ∧
      exec .report s = .next t ∧
      t.seq = s.seq + 1#8 ∧
      (∀ a, a < 17 →
        t.pbuf.read a = (wireFrame Config.params s.inputs ⟨l.rssi, r.rssi, l.noise, r.noise⟩ s.seq)[a]?) ∧
      (∀ a, 17 ≤ a → t.pbuf.read a = s.pbuf.read a) ∧
      t.writes =
        (if s.inputs.s6 < 17 then s.writes
        else s.writes ++ [wireFrame Config.params s.inputs ⟨l.rssi, r.rssi, l.noise, r.noise⟩ s.seq]) ∧
      t.inputs = s.inputs ∧ t.reads = s.reads ∧ t.host = s.host

/-- The frame of `REPORT`: it stores to offsets 0 to 16 and to nothing above, and leaves the ports and the host
as they were (42_report R90, "State written"). -/
def Obligations.ReportChangesSeventeenCellsOnly : Prop :=
  ∀ s t : State, exec .report s = .next t →
    t.seq = s.seq + 1#8 ∧ t.inputs = s.inputs ∧ t.reads = s.reads ∧ t.host = s.host ∧
    (∃ new, t.writes = s.writes ++ new ∧ new.length ≤ 1) ∧
    ∀ a, 17 ≤ a → t.pbuf.read a = s.pbuf.read a

/-- The role mux: a base reports entry 1 of both tables, a remote its own entry of STAT and entry 0 of RSTAT,
signal and noise alike; an identity outside the tables is refused (42_report R95). -/
def Obligations.ReportRoleMux : Prop :=
  (∀ s : State, s.inputs.Fits Config.params → s.inputs.nodeId = 0 →
    ∃ t l r, exec .report s = .next t ∧ s.inputs.stat[1]? = some l ∧ s.inputs.rstat[1]? = some r ∧
      t.pbuf.read 10 = some l.rssi ∧ t.pbuf.read 11 = some r.rssi ∧
      t.pbuf.read 13 = some l.noise ∧ t.pbuf.read 14 = some r.noise) ∧
  (∀ s : State, s.inputs.Fits Config.params → s.inputs.nodeId ≠ 0 → s.inputs.nodeId < Config.params.nNodes →
    ∃ t l r, exec .report s = .next t ∧ s.inputs.stat[s.inputs.nodeId]? = some l ∧
      s.inputs.rstat[0]? = some r ∧
      t.pbuf.read 10 = some l.rssi ∧ t.pbuf.read 11 = some r.rssi ∧
      t.pbuf.read 13 = some l.noise ∧ t.pbuf.read 14 = some r.noise) ∧
  (∀ s : State, Config.params.nNodes ≤ s.inputs.nodeId → exec .report s = .refused .indexOutOfTable)

/-- The gate: the report is dropped if and only if `S6 < 17`, and then nothing is emitted and the operation ends
normally; otherwise one write of the 17 bytes at offsets 0 to 16 in ascending order (42_report R99, R100). -/
def Obligations.ReportGate : Prop :=
  ∀ s : State, s.inputs.Fits Config.params → s.inputs.nodeId < Config.params.nNodes →
    ∃ t, exec .report s = .next t ∧
      (s.inputs.s6 < 17 → t.writes = s.writes) ∧
      (17 ≤ s.inputs.s6 → ∃ bytes, t.writes = s.writes ++ [bytes] ∧ bytes.length = 17 ∧
        ∀ k, k < 17 → bytes[k]? = t.pbuf.read k)

/-- The two samples of TX_SPACE are two values: the frame shows `TXBUF_ENC(S2)`, and another `S6` changes neither
the buffer nor the counter, only whether the frame is written (42_report R94, R102). -/
def Obligations.ReportSpaceSamplesIndependent : Prop :=
  ∀ (s : State) (n : Nat), s.inputs.Fits Config.params → s.inputs.nodeId < Config.params.nNodes →
    ∃ t u, exec .report s = .next t ∧ exec .report { s with inputs := { s.inputs with s6 := n } } = .next u ∧
      t.pbuf.read 12 = some (Config.txbufEnc s.inputs.s2) ∧ u.pbuf = t.pbuf ∧ u.seq = t.seq ∧
      (u.writes = s.writes ↔ n < 17)

/-- After `REPORT`, sent or dropped, the checksum of the frame in the buffer is valid for the report's seed
(42_report R98, R102; 20_memory R44). -/
def Obligations.ReportLeavesAValidChecksum : Prop :=
  ∀ s t : State, exec .report s = .next t → t.pbuf.ChecksumValid Config.params.crcExtraRs

/-- NATIVE_ORDER is unobservable: the path that stores the counters high byte first and applies the adapter ends
in the same outcome as the little path (20_memory section 3, 42_report section 2; the spec's own derivation). -/
def Obligations.NativeOrderUnobservable : Prop :=
  ∀ (p : Params) (s : State), p.Legal → s.pbuf.wf →
    reportWith { p with nativeOrder := .big } s = reportWith { p with nativeOrder := .little } s

/-- Straight after reset a `REPORT` completes for every value of the inputs and carries sequence number 0
(10_state section 8; the spec's own derivation). It rests on no reset value of the inputs. -/
def Obligations.ReportStraightAfterReset : Prop :=
  ∀ inp : Inputs, inp.Fits Config.params → inp.nodeId < Config.params.nNodes →
    ∃ t, exec .report { State.reset with inputs := inp } = .next t ∧ t.seq = 1#8 ∧ t.pbuf.read 2 = some 0#8

/-- Two reports one after the other with the same inputs: their frames differ in the sequence byte and in the
checksum, and in no other byte (42_report section 3, corner case (h)). -/
def Obligations.TwoReportsDifferInSequenceAndChecksum : Prop :=
  ∀ s t u : State, exec .report s = .next t → exec .report t = .next u →
    u.pbuf.read 2 ≠ t.pbuf.read 2 ∧
    (u.pbuf.read 15 ≠ t.pbuf.read 15 ∨ u.pbuf.read 16 ≠ t.pbuf.read 16) ∧
    ∀ a, a ≠ 2 → a ≠ 15 → a ≠ 16 → u.pbuf.read a = t.pbuf.read a

/-- Sequence numbers over any number of reports, whatever inputs the host presents to each: every report built
advances SEQ by one modulo 256, sent or dropped, the frames written are those that passed the gate, in order, and
each carries the number of its report; a refused `REPORT` has no successor state (42_report section 2). That each report's
inputs are presented by a move of their own before it is the model's choice (assumption log 3). -/
def Obligations.ConsecutiveReportsCountModulo256 : Prop :=
  (∀ (ins : List Inputs) (s : State),
    (∀ inp ∈ ins, inp.Fits Config.params ∧ inp.nodeId < Config.params.nNodes) →
    s.host = ins.flatMap (fun inp => [HostMove.present inp, HostMove.command 0x00003#18]) →
    ∃ t frames, Host.Core.run Sys2Proof.core (2 * ins.length) s = .next t ∧ t.host = [] ∧
      t.seq = s.seq + BitVec.ofNat 8 ins.length ∧
      t.writes = s.writes ++ frames ∧
      frames.map (fun f => f[2]?) =
        (ins.zipIdx.filter (fun x => decide (17 ≤ x.1.s6))).map (fun x => some (s.seq + BitVec.ofNat 8 x.2)) ∧
      (ins ≠ [] → t.pbuf.read 2 = some (s.seq + BitVec.ofNat 8 (ins.length - 1)))) ∧
  (∀ s t : State, Config.params.nNodes ≤ s.inputs.nodeId → exec .report s ≠ .next t)

/-- A frame built by hand with big-endian counters, then `SWAP 6, 4` and `CRC` with the report's seed, is byte for
byte the frame a `REPORT` builds (41_byteswap section "R84", 70_reset_and_hazards section 2, program P3). -/
def Obligations.HandBuiltFrameEqualsReport : Prop :=
  ∀ s t u : State, exec .report s = .next t →
    (∀ a, a < 15 → a ≠ 6 → a ≠ 7 → a ≠ 8 → a ≠ 9 → u.pbuf.read a = t.pbuf.read a) →
    u.pbuf.read 6 = t.pbuf.read 7 → u.pbuf.read 7 = t.pbuf.read 6 →
    u.pbuf.read 8 = t.pbuf.read 9 → u.pbuf.read 9 = t.pbuf.read 8 →
    ∃ v w, exec (.swap 6 4) u = .next v ∧ exec (.crc Config.params.crcExtraRs) v = .next w ∧
      (∀ a, a < 17 → w.pbuf.read a = t.pbuf.read a) ∧ w.seq = u.seq ∧ w.writes = u.writes

/-! ### The whole machine -/

/-- At reset SEQ is zero, every cell of PBUF is `undef` and nothing has been written (10_state section 8,
70_reset_and_hazards section 1). -/
def Obligations.ResetLeaves : Prop :=
  State.reset.seq = 0x00#8 ∧ (∀ a, State.reset.pbuf.read a = none) ∧ State.reset.writes = []

/-- The invariant holds at reset (the inputs' reset values are the model's choice, assumption log 4). -/
def Obligations.InvariantHoldsAtReset : Prop := State.reset.Inv

/-- Every step that answers keeps the invariant: the buffer canonical and inside its capacity, the ports within
their widths, and every transport write of the run a valid status report with a valid checksum. -/
def Obligations.StepKeepsTheInvariant : Prop :=
  ∀ s t : State, s.Inv → step s = .next t → t.Inv

/-- SEQ: zero at reset; one `REPORT` copies it to offset 2 and advances it by one modulo 256; `CRC` and `SWAP`
neither read nor write it, and no host move loads, clears or reads it (10_state R11). -/
def Obligations.OnlyReportTouchesSeq : Prop :=
  State.reset.seq = 0x00#8 ∧
  (∀ s t : State, exec .report s = .next t →
    t.pbuf.read 2 = some s.seq ∧ t.seq.toNat = (s.seq.toNat + 1) % 2 ^ 8) ∧
  (∀ (i : Instr) (s t : State) (v : Byte), i ≠ .report → exec i s = .next t →
    t.seq = s.seq ∧ exec i { s with seq := v } = .next { t with seq := v }) ∧
  (∀ (s t : State) (v : Byte), (∀ w rest, s.host ≠ .command w :: rest) → step s = .next t →
    t.seq = s.seq ∧ step { s with seq := v } = .next { t with seq := v })

/-- The block's only output: a step appends one transport write exactly if it is a `REPORT` with at least 17 bytes
of space sampled at step 6, and its bytes are offsets 0 to 16 in ascending order; any other step that answers
leaves the list of writes as it was (10_state R21). -/
def Obligations.OnlyReportEmitsAWrite : Prop :=
  ∀ s t : State, step s = .next t →
    ((∃ rest, s.host = .command 0x00003#18 :: rest) ∧ 17 ≤ s.inputs.s6 →
      ∃ bytes, t.writes = s.writes ++ [bytes] ∧ bytes.length = 17 ∧ ∀ k, k < 17 → bytes[k]? = t.pbuf.read k) ∧
    (¬ ((∃ rest, s.host = .command 0x00003#18 :: rest) ∧ 17 ≤ s.inputs.s6) → t.writes = s.writes)

/-- The set of synchronous exceptions is empty: no operation, in any state, ends in a fault (60_exceptions R110). -/
def Obligations.NoOperationFaults : Prop :=
  ∀ (i : Instr) (s : State) (f : Fault), exec i s ≠ .fault f

/-- A step faults exactly on a host move that does not exist, a cell at or above the capacity or inputs the ports
cannot carry: the model's choice (assumption log 7). -/
def Obligations.StepFaultsOnlyOnMovesThatDoNotExist : Prop :=
  ∀ (s : State) (f : Fault), step s = .fault f ↔
    (f = .noSuchCell ∧ ∃ a rest, Config.params.pbufCap ≤ a ∧
      ((∃ b, s.host = .write a b :: rest) ∨ s.host = .read a :: rest)) ∨
    (f = .noSuchInputs ∧ ∃ inp rest, ¬ inp.Fits Config.params ∧ s.host = .present inp :: rest)

/-- The closed list of refusals: which operation can give which reason, and under which condition
(60_exceptions R111). -/
def Obligations.RefusalsAreTheClosedList : Prop :=
  (∀ (s : State) (extra : Byte) (e : Refusal), exec (.crc extra) s = .refused e →
    (e = .regionOutOfBounds ∧ ∃ l, s.pbuf.read 1 = some l ∧ Config.params.pbufCap < l.toNat + 8) ∨
    (e = .unwrittenCell ∧ ∃ a, 1 ≤ a ∧ s.pbuf.read a = none ∧
      (a = 1 ∨ ∃ l, s.pbuf.read 1 = some l ∧ a ≤ 5 + l.toNat))) ∧
  (∀ (s : State) (ofs len : Nat) (e : Refusal), exec (.swap ofs len) s = .refused e →
    (e = .oddLength ∧ len % 2 = 1) ∨ (e = .regionOutOfBounds ∧ Config.params.pbufCap < ofs + len) ∨
    (e = .unwrittenCell ∧ ∃ a, ofs ≤ a ∧ a < ofs + len ∧ s.pbuf.read a = none)) ∧
  (∀ (s : State) (e : Refusal), s.inputs.Fits Config.params →
    (exec .report s = .refused e ↔ e = .indexOutOfTable ∧ Config.params.nNodes ≤ s.inputs.nodeId)) ∧
  (∀ (s : State) (e : Refusal), step s = .refused e →
    ∃ w rest, s.host = .command w :: rest ∧
      ((e = .reservedEncoding ∧ decode w = .error .reservedEncoding) ∨
        ∃ i, decode w = .ok i ∧ exec i { s with host := rest } = .refused e))

/-- No operation changes the input ports, the host's pending moves (the commands to come among them) or what the
host has read (10_state R19, R23; 20_memory R40, R45). -/
def Obligations.OperationsLeavePortsAndCommandsAlone : Prop :=
  ∀ (i : Instr) (s t : State), exec i s = .next t →
    t.inputs = s.inputs ∧ t.host = s.host ∧ t.reads = s.reads

/-- No step writes outside the buffer, and no step makes a defined cell `undef` again (20_memory R31, R38). -/
def Obligations.StepsKeepCellsDefinedAndInBounds : Prop :=
  ∀ (s t : State) (a : Nat), step s = .next t →
    (Config.params.pbufCap ≤ a → t.pbuf.read a = s.pbuf.read a) ∧
    (s.pbuf.read a ≠ none → t.pbuf.read a ≠ none)
end

