-- ==== Sys2Proof/Laws/State.lean ====
section
/-! SUPPORT. What each update of the state leaves in each field: one lemma for each field and update, all true by
unfolding, so that no later proof unfolds a record update. -/

namespace Sys2Proof.Machine

@[simp] theorem State.setSeq_seq (s : State) (v : Byte) : (s.setSeq v).seq = v := rfl
@[simp] theorem State.setSeq_pbuf (s : State) (v : Byte) : (s.setSeq v).pbuf = s.pbuf := rfl
@[simp] theorem State.setSeq_inputs (s : State) (v : Byte) : (s.setSeq v).inputs = s.inputs := rfl
@[simp] theorem State.setSeq_writes (s : State) (v : Byte) : (s.setSeq v).writes = s.writes := rfl
@[simp] theorem State.setSeq_reads (s : State) (v : Byte) : (s.setSeq v).reads = s.reads := rfl
@[simp] theorem State.setSeq_host (s : State) (v : Byte) : (s.setSeq v).host = s.host := rfl

@[simp] theorem State.setPbuf_seq (s : State) (m : Memory) : (s.setPbuf m).seq = s.seq := rfl
@[simp] theorem State.setPbuf_pbuf (s : State) (m : Memory) : (s.setPbuf m).pbuf = m := rfl
@[simp] theorem State.setPbuf_inputs (s : State) (m : Memory) : (s.setPbuf m).inputs = s.inputs := rfl
@[simp] theorem State.setPbuf_writes (s : State) (m : Memory) : (s.setPbuf m).writes = s.writes := rfl
@[simp] theorem State.setPbuf_reads (s : State) (m : Memory) : (s.setPbuf m).reads = s.reads := rfl
@[simp] theorem State.setPbuf_host (s : State) (m : Memory) : (s.setPbuf m).host = s.host := rfl

@[simp] theorem State.setInputs_seq (s : State) (inp : Inputs) : (s.setInputs inp).seq = s.seq := rfl
@[simp] theorem State.setInputs_pbuf (s : State) (inp : Inputs) : (s.setInputs inp).pbuf = s.pbuf := rfl
@[simp] theorem State.setInputs_inputs (s : State) (inp : Inputs) : (s.setInputs inp).inputs = inp := rfl
@[simp] theorem State.setInputs_writes (s : State) (inp : Inputs) : (s.setInputs inp).writes = s.writes := rfl
@[simp] theorem State.setInputs_reads (s : State) (inp : Inputs) : (s.setInputs inp).reads = s.reads := rfl
@[simp] theorem State.setInputs_host (s : State) (inp : Inputs) : (s.setInputs inp).host = s.host := rfl

@[simp] theorem State.setHost_seq (s : State) (moves : List HostMove) : (s.setHost moves).seq = s.seq := rfl
@[simp] theorem State.setHost_pbuf (s : State) (moves : List HostMove) : (s.setHost moves).pbuf = s.pbuf := rfl
@[simp] theorem State.setHost_inputs (s : State) (moves : List HostMove) : (s.setHost moves).inputs = s.inputs := rfl
@[simp] theorem State.setHost_writes (s : State) (moves : List HostMove) : (s.setHost moves).writes = s.writes := rfl
@[simp] theorem State.setHost_reads (s : State) (moves : List HostMove) : (s.setHost moves).reads = s.reads := rfl
@[simp] theorem State.setHost_host (s : State) (moves : List HostMove) : (s.setHost moves).host = moves := rfl

@[simp] theorem State.pushWrite_seq (s : State) (bytes : List Byte) : (s.pushWrite bytes).seq = s.seq := rfl
@[simp] theorem State.pushWrite_pbuf (s : State) (bytes : List Byte) : (s.pushWrite bytes).pbuf = s.pbuf := rfl
@[simp] theorem State.pushWrite_inputs (s : State) (bytes : List Byte) : (s.pushWrite bytes).inputs = s.inputs := rfl
@[simp] theorem State.pushWrite_writes (s : State) (bytes : List Byte) : (s.pushWrite bytes).writes = s.writes ++ [bytes] := rfl
@[simp] theorem State.pushWrite_reads (s : State) (bytes : List Byte) : (s.pushWrite bytes).reads = s.reads := rfl
@[simp] theorem State.pushWrite_host (s : State) (bytes : List Byte) : (s.pushWrite bytes).host = s.host := rfl

@[simp] theorem State.pushRead_seq (s : State) (b : Byte) : (s.pushRead b).seq = s.seq := rfl
@[simp] theorem State.pushRead_pbuf (s : State) (b : Byte) : (s.pushRead b).pbuf = s.pbuf := rfl
@[simp] theorem State.pushRead_inputs (s : State) (b : Byte) : (s.pushRead b).inputs = s.inputs := rfl
@[simp] theorem State.pushRead_writes (s : State) (b : Byte) : (s.pushRead b).writes = s.writes := rfl
@[simp] theorem State.pushRead_reads (s : State) (b : Byte) : (s.pushRead b).reads = s.reads ++ [b] := rfl
@[simp] theorem State.pushRead_host (s : State) (b : Byte) : (s.pushRead b).host = s.host := rfl

/-- Putting back the buffer a state has changes nothing. -/
@[simp] theorem State.setPbuf_self (s : State) : s.setPbuf s.pbuf = s := rfl

@[simp] theorem State.setPbuf_setPbuf (s : State) (m m' : Memory) : (s.setPbuf m).setPbuf m' = s.setPbuf m' := rfl

/-- An operation on the buffer answers a next state exactly when it gives a new buffer. -/
theorem commit_eq_next_iff (s t : State) (r : Except Refusal Memory) :
    commit s r = .next t ↔ ∃ m, r = .ok m ∧ t = s.setPbuf m := by
  cases r with
  | ok m => simp [commit, eq_comm]
  | error e => simp [commit]

/-- It is refused exactly when the operation is, and for the same reason. -/
theorem commit_eq_refused_iff (s : State) (r : Except Refusal Memory) (e : Refusal) :
    commit s r = .refused e ↔ r = .error e := by
  cases r <;> simp [commit]

/-- It never faults. -/
theorem commit_ne_fault (s : State) (r : Except Refusal Memory) (f : Fault) : commit s r ≠ .fault f := by
  cases r <;> simp [commit]

end Sys2Proof.Machine
end

