-- ==== Sys2Proof/Laws/Memory.lean ====
section
/-! SUPPORT. The laws of the packet buffer: reading after writing, that every operation keeps the canonical form,
that a canonical buffer is what it reads as, and what a run of cells and a run of exchanged pairs are. -/

namespace Sys2Proof.Machine

@[simp] theorem Memory.read_nil (a : Nat) : Memory.read [] a = none := rfl

/-- Reading after a one-byte write: the byte written at its offset, the old cell everywhere else. -/
@[simp] theorem Memory.read_write (m : Memory) (a c : Nat) (b : Byte) :
    (m.write a b).read c = if c = a then some b else m.read c := by
  induction m with
  | nil => simp [Memory.write, Memory.read]
  | cons cell m ih =>
    obtain ⟨k, x⟩ := cell
    simp only [Memory.write]
    split
    · simp [Memory.read]
    · split
      · subst_vars; by_cases h : c = k <;> simp [Memory.read, h]
      · by_cases h : c = k
        · subst h; simp only [Memory.read]; simp; omega
        · simp [Memory.read, h, ih]

/-- A write keeps the offsets at or above a bound that the written one respects. -/
theorem Memory.write_bounded {m : Memory} {a lower : Nat} (b : Byte) (hm : ∀ c ∈ m, lower < c.1)
    (ha : lower < a) : ∀ c ∈ m.write a b, lower < c.1 := by
  induction m with
  | nil => simpa [Memory.write] using ha
  | cons cell m ih =>
    obtain ⟨k, x⟩ := cell
    simp only [List.mem_cons, forall_eq_or_imp] at hm
    simp only [Memory.write]
    split
    · exact List.forall_mem_cons.2 ⟨ha, List.forall_mem_cons.2 hm⟩
    · split
      · exact List.forall_mem_cons.2 ⟨ha, hm.2⟩
      · exact List.forall_mem_cons.2 ⟨hm.1, ih hm.2⟩

/-- A write keeps the canonical form. -/
theorem Memory.write_wf {m : Memory} (h : m.wf) (a : Nat) (b : Byte) : (m.write a b).wf := by
  induction m with
  | nil => simp [Memory.write]
  | cons cell m ih =>
    obtain ⟨k, x⟩ := cell
    obtain ⟨hk, hm⟩ := List.pairwise_cons.1 h
    simp only [Memory.write]
    split
    · rename_i hlt
      refine List.pairwise_cons.2 ⟨?_, h⟩
      intro c hc
      rcases List.mem_cons.1 hc with rfl | hc
      · exact hlt
      · exact lt_trans hlt (hk c hc)
    · split
      · rename_i heq
        exact List.pairwise_cons.2 ⟨fun c hc => by simpa [heq] using hk c hc, hm⟩
      · refine List.pairwise_cons.2 ⟨?_, ih hm⟩
        exact Memory.write_bounded b hk (by omega)

/-- The second of two writes to one cell is the one that stays. -/
theorem Memory.write_write_same (m : Memory) (a : Nat) (b c : Byte) :
    (m.write a b).write a c = m.write a c := by
  induction m with
  | nil => simp [Memory.write]
  | cons cell m ih =>
    obtain ⟨k, x⟩ := cell
    by_cases h : a < k
    · simp [Memory.write, h]
    · by_cases h' : a = k
      · simp [Memory.write, h']
      · simp [Memory.write, h, h', ih]

/-- Writes to two cells commute. -/
theorem Memory.write_comm (m : Memory) {a a' : Nat} (hne : a ≠ a') (b b' : Byte) :
    (m.write a b).write a' b' = (m.write a' b').write a b := by
  induction m with
  | nil =>
    rcases Nat.lt_or_gt_of_ne hne with h | h
    · simp [Memory.write, h, show ¬ a' < a by omega, hne.symm]
    · simp [Memory.write, h, show ¬ a < a' by omega, hne]
  | cons cell m ih =>
    obtain ⟨k, x⟩ := cell
    rcases Nat.lt_trichotomy a k with h | h | h <;> rcases Nat.lt_trichotomy a' k with h' | h' | h'
    · rcases Nat.lt_or_gt_of_ne hne with g | g
      · simp [Memory.write, h, h', g, show ¬ a' < a by omega, hne.symm]
      · simp [Memory.write, h, h', g, show ¬ a < a' by omega, hne]
    · subst h'; simp [Memory.write, h, show ¬ a' < a by omega, hne.symm]
    · simp [Memory.write, h, show ¬ a' < a by omega, show ¬ a' < k by omega, hne.symm,
        show ¬ a' = k by omega]
    · subst h; simp [Memory.write, h', show ¬ a < a' by omega, hne]
    · omega
    · subst h; simp [Memory.write, show ¬ a' < a by omega, show ¬ a' = a by omega]
    · simp [Memory.write, h', show ¬ a < a' by omega, show ¬ a < k by omega, hne, show ¬ a = k by omega]
    · subst h'; simp [Memory.write, show ¬ a < a' by omega, hne]
    · simp [Memory.write, show ¬ a < k by omega, show ¬ a = k by omega, show ¬ a' < k by omega,
        show ¬ a' = k by omega, ih]

/-- In a canonical buffer no cell below the first listed one is defined. -/
theorem Memory.read_eq_none_of_lt {m : Memory} {a : Nat} (h : ∀ c ∈ m, a < c.1) : m.read a = none := by
  induction m with
  | nil => rfl
  | cons cell m ih =>
    obtain ⟨k, x⟩ := cell
    simp only [List.mem_cons, forall_eq_or_imp] at h
    simp [Memory.read, show ¬ a = k by omega, ih h.2]

/-- A canonical buffer is what it reads as: equal buffers are equal lists. -/
theorem Memory.ext_of_wf {m m' : Memory} (h : m.wf) (h' : m'.wf) (hread : ∀ a, m.read a = m'.read a) :
    m = m' := by
  induction m generalizing m' with
  | nil =>
    cases m' with
    | nil => rfl
    | cons cell m' => have := hread cell.1; simp [Memory.read] at this
  | cons cell m ih =>
    obtain ⟨k, x⟩ := cell
    obtain ⟨hk, hm⟩ := List.pairwise_cons.1 h
    cases m' with
    | nil => have := hread k; simp [Memory.read] at this
    | cons cell' m' =>
      obtain ⟨k', x'⟩ := cell'
      obtain ⟨hk', hm'⟩ := List.pairwise_cons.1 h'
      have hkk : k = k' := by
        rcases Nat.lt_trichotomy k k' with g | g | g
        · have := hread k
          rw [Memory.read_eq_none_of_lt (m := (k', x') :: m') (a := k)
            (by simpa using ⟨g, fun p q hc => lt_trans g (hk' (p, q) hc)⟩)] at this
          simp [Memory.read] at this
        · exact g
        · have := hread k'
          rw [Memory.read_eq_none_of_lt (m := (k, x) :: m) (a := k')
            (by simpa using ⟨g, fun p q hc => lt_trans g (hk (p, q) hc)⟩)] at this
          simp [Memory.read] at this
      subst hkk
      have hx : x = x' := by simpa [Memory.read] using hread k
      subst hx
      refine congrArg _ (ih hm hm' fun a => ?_)
      by_cases ha : a = k
      · subst ha
        rw [Memory.read_eq_none_of_lt hk, Memory.read_eq_none_of_lt hk']
      · simpa [Memory.read, ha] using hread a

/-- Writing the byte a cell holds changes nothing in a canonical buffer. -/
theorem Memory.write_eq_self {m : Memory} (h : m.wf) {a : Nat} {b : Byte} (hr : m.read a = some b) :
    m.write a b = m := by
  refine Memory.ext_of_wf (Memory.write_wf h a b) h fun c => ?_
  by_cases hc : c = a
  · simp [hc, hr]
  · simp [hc]

@[simp] theorem Memory.writeN_nil (m : Memory) (a : Nat) : m.writeN a [] = m := rfl

@[simp] theorem Memory.writeN_cons (m : Memory) (a : Nat) (b : Byte) (bs : List Byte) :
    m.writeN a (b :: bs) = (m.write a b).writeN (a + 1) bs := rfl

/-- A run of writes keeps the canonical form. -/
theorem Memory.writeN_wf {m : Memory} (h : m.wf) (a : Nat) (bs : List Byte) : (m.writeN a bs).wf := by
  induction bs generalizing m a with
  | nil => exact h
  | cons b bs ih => exact ih (Memory.write_wf h a b) (a + 1)

/-- Reading after a run of writes: the run's bytes inside it, the old cells outside. -/
theorem Memory.read_writeN (m : Memory) (a c : Nat) (bs : List Byte) :
    (m.writeN a bs).read c = if a ≤ c ∧ c < a + bs.length then bs[c - a]? else m.read c := by
  induction bs generalizing m a with
  | nil => rw [if_neg (by simp)]; rfl
  | cons b bs ih =>
    rw [Memory.writeN_cons, ih]
    by_cases hc : c = a
    · subst hc; simp
    · by_cases h : a + 1 ≤ c ∧ c < a + 1 + bs.length
      · rw [if_pos h, if_pos (by simp; omega), show c - a = (c - (a + 1)) + 1 by omega]
        simp
      · rw [if_neg h, if_neg (by simp; omega)]
        simp [hc]

/-- `MemWrite16LE` keeps the canonical form. -/
theorem Memory.write16LE_wf {m : Memory} (h : m.wf) (a : Nat) (w : Word16) : (m.write16LE a w).wf :=
  Memory.writeN_wf h a _

/-- Reading after `MemWrite16LE`: the low byte at the lower offset, the high byte above it (00_scope R7). -/
@[simp] theorem Memory.read_write16LE (m : Memory) (a c : Nat) (w : Word16) :
    (m.write16LE a w).read c =
      if c = a then some (lo8 w) else if c = a + 1 then some (hi8 w) else m.read c := by
  simp only [Memory.write16LE, fieldBytes, Memory.writeN_cons, Memory.writeN_nil, Memory.read_write]
  by_cases h : c = a + 1
  · subst h; simp
  · simp [h]

/-- What a run of cells reads as: its bytes, one for each cell. -/
theorem Memory.readN_eq_some_iff (m : Memory) (a n : Nat) (bs : List Byte) :
    m.readN a n = some bs ↔ bs.length = n ∧ ∀ k, k < n → m.read (a + k) = bs[k]? := by
  induction n generalizing a bs with
  | zero => simp [Memory.readN, eq_comm (a := ([] : List Byte))]
  | succ n ih =>
    simp only [Memory.readN]
    constructor
    · intro h
      split at h
      · rename_i b bs' hb hbs
        obtain ⟨hl, hk⟩ := (ih (a + 1) bs').1 hbs
        cases h
        refine ⟨by simp [hl], fun k hkn => ?_⟩
        cases k with
        | zero => simpa using hb
        | succ k => simpa [show a + (k + 1) = a + 1 + k by omega] using hk k (by omega)
      · cases h
    · rintro ⟨hl, hk⟩
      cases bs with
      | nil => simp at hl
      | cons b bs' =>
        have hb : m.read a = some b := by simpa using hk 0 (by omega)
        have hbs : m.readN (a + 1) n = some bs' := (ih (a + 1) bs').2
          ⟨by simpa using hl, fun k hkn => by
            simpa [show a + (k + 1) = a + 1 + k by omega] using hk (k + 1) (by omega)⟩
        simp [hb, hbs]

/-- A run of cells has no value exactly when one of its cells is `undef` (20_memory R31). -/
theorem Memory.readN_eq_none_iff (m : Memory) (a n : Nat) :
    m.readN a n = none ↔ ∃ k, k < n ∧ m.read (a + k) = none := by
  induction n generalizing a with
  | zero => simp [Memory.readN]
  | succ n ih =>
    simp only [Memory.readN]
    cases hb : m.read a with
    | none => simpa using ⟨0, by omega, by simpa using hb⟩
    | some b =>
      have := ih (a + 1)
      cases hbs : m.readN (a + 1) n with
      | none =>
        obtain ⟨k, hk, hr⟩ := this.1 hbs
        simpa using ⟨k + 1, by omega, by simpa [show a + (k + 1) = a + 1 + k by omega] using hr⟩
      | some bs =>
        simp only [reduceCtorEq, false_iff, not_exists, not_and]
        intro k hk hr
        cases k with
        | zero => simp [hb] at hr
        | succ k =>
          have hnone := this.2 ⟨k, by omega, by simpa [show a + (k + 1) = a + 1 + k by omega] using hr⟩
          simp [hbs] at hnone

/-- The length of a run that was read. -/
theorem Memory.length_of_readN {m : Memory} {a n : Nat} {bs : List Byte} (h : m.readN a n = some bs) :
    bs.length = n := ((Memory.readN_eq_some_iff m a n bs).1 h).1

/-- Two buffers that agree on a run read it alike. -/
theorem Memory.readN_congr {m m' : Memory} {a n : Nat} (h : ∀ k, k < n → m.read (a + k) = m'.read (a + k)) :
    m.readN a n = m'.readN a n := by
  cases hm : m'.readN a n with
  | some bs =>
    obtain ⟨hl, hk⟩ := (Memory.readN_eq_some_iff _ _ _ _).1 hm
    exact (Memory.readN_eq_some_iff _ _ _ _).2 ⟨hl, fun k hkn => (h k hkn).trans (hk k hkn)⟩
  | none =>
    obtain ⟨k, hkn, hr⟩ := (Memory.readN_eq_none_iff _ _ _).1 hm
    exact (Memory.readN_eq_none_iff _ _ _).2 ⟨k, hkn, (h k hkn).trans hr⟩

/-- An exchange answers exactly when both cells are defined, and then the two have changed places. -/
theorem Memory.exchange_eq_some_iff (m m' : Memory) (a : Nat) :
    m.exchange a = some m' ↔
      ∃ x y, m.read a = some x ∧ m.read (a + 1) = some y ∧ m' = (m.write a y).write (a + 1) x := by
  simp only [Memory.exchange]
  cases m.read a <;> cases m.read (a + 1) <;> simp [eq_comm]

/-- What an exchange leaves in each cell. -/
theorem Memory.read_exchange {m m' : Memory} {a : Nat} (h : m.exchange a = some m') (c : Nat) :
    m'.read c = if c = a then m.read (a + 1) else if c = a + 1 then m.read a else m.read c := by
  obtain ⟨x, y, hx, hy, rfl⟩ := (Memory.exchange_eq_some_iff m m' a).1 h
  by_cases h1 : c = a + 1
  · subst h1; simp [hx]
  · by_cases h2 : c = a <;> simp [h1, h2, hy]

/-- An exchange keeps the canonical form. -/
theorem Memory.exchange_wf {m m' : Memory} {a : Nat} (hm : m.wf) (h : m.exchange a = some m') : m'.wf := by
  obtain ⟨x, y, -, -, rfl⟩ := (Memory.exchange_eq_some_iff m m' a).1 h
  exact Memory.write_wf (Memory.write_wf hm _ _) _ _

/-- The adapter's loop keeps the canonical form. -/
theorem Memory.swapPairs_wf {m m' : Memory} {a n : Nat} (hm : m.wf) (h : m.swapPairs a n = some m') : m'.wf := by
  induction n generalizing m a with
  | zero => cases h; exact hm
  | succ n ih =>
    simp only [Memory.swapPairs] at h
    split at h
    · rename_i m1 h1; exact ih (Memory.exchange_wf hm h1) h
    · cases h

/-- What the adapter's loop leaves in each cell: inside the region the other cell of the pair, pairs counted from
its first offset, and outside it the old cell (41_byteswap R80). -/
theorem Memory.read_swapPairs {m m' : Memory} {a n : Nat} (h : m.swapPairs a n = some m') (c : Nat) :
    m'.read c =
      if a ≤ c ∧ c < a + 2 * n then (if (c - a) % 2 = 0 then m.read (c + 1) else m.read (c - 1))
      else m.read c := by
  induction n generalizing m a with
  | zero => cases h; rw [if_neg (by omega)]
  | succ n ih =>
    simp only [Memory.swapPairs] at h
    split at h
    · rename_i m1 h1
      rw [ih h]
      by_cases hc : c = a
      · subst hc
        simp [Memory.read_exchange h1]
      · by_cases hc' : c = a + 1
        · subst hc'
          simp [Memory.read_exchange h1]
          omega
        · by_cases hin : a + 2 ≤ c ∧ c < a + 2 + 2 * n
          · rw [if_pos hin, if_pos (show a ≤ c ∧ c < a + 2 * (n + 1) by omega)]
            rw [show (c - (a + 2)) % 2 = (c - a) % 2 by omega]
            by_cases hpar : (c - a) % 2 = 0
            · rw [if_pos hpar, if_pos hpar, Memory.read_exchange h1, if_neg (by omega), if_neg (by omega)]
            · rw [if_neg hpar, if_neg hpar, Memory.read_exchange h1, if_neg (by omega), if_neg (by omega)]
          · rw [if_neg hin, if_neg (by omega), Memory.read_exchange h1, if_neg hc, if_neg hc']
    · cases h

/-- The adapter's loop has no result exactly when a cell of the region is `undef` (20_memory R31). -/
theorem Memory.swapPairs_eq_none_iff (m : Memory) (a n : Nat) :
    m.swapPairs a n = none ↔ ∃ k, k < 2 * n ∧ m.read (a + k) = none := by
  induction n generalizing m a with
  | zero => simp [Memory.swapPairs]
  | succ n ih =>
    simp only [Memory.swapPairs]
    cases h1 : m.exchange a with
    | none =>
      simp only [true_iff]
      simp only [Memory.exchange] at h1
      cases h0 : m.read a with
      | none => exact ⟨0, by omega, by simpa using h0⟩
      | some x =>
        cases h2 : m.read (a + 1) with
        | none => exact ⟨1, by omega, h2⟩
        | some y => simp [h0, h2] at h1
    | some m1 =>
      obtain ⟨x, y, hx, hy, -⟩ := (Memory.exchange_eq_some_iff m m1 a).1 h1
      simp only [ih m1 (a + 2)]
      constructor
      · rintro ⟨k, hk, hr⟩
        rw [Memory.read_exchange h1, if_neg (by omega), if_neg (by omega)] at hr
        exact ⟨k + 2, by omega, by simpa [show a + (k + 2) = a + 2 + k by omega] using hr⟩
      · rintro ⟨k, hk, hr⟩
        have h0 : k ≠ 0 := by rintro rfl; simp [hx] at hr
        have h1' : k ≠ 1 := by rintro rfl; simp [hy] at hr
        refine ⟨k - 2, by omega, ?_⟩
        rw [Memory.read_exchange h1, if_neg (by omega), if_neg (by omega),
          show a + 2 + (k - 2) = a + k by omega]
        exact hr

end Sys2Proof.Machine
end

