-- ==== Sys2Proof/Laws/ByteSwap.lean ====
section
/-! SUPPORT. The Byte-Order Adapter's step on the buffer: when it answers and with what, when it is refused, and
that it keeps the canonical form. -/

namespace Sys2Proof.Machine

/-- The adapter answers exactly when the length is even, the region fits and the loop has a result
(41_byteswap R80, R81). -/
theorem adapterStep_eq_ok_iff (p : Params) (ofs len : Nat) (m m' : Memory) :
    adapterStep p ofs len m = .ok m' ↔
      len % 2 = 0 ∧ ofs + len ≤ p.pbufCap ∧ m.swapPairs ofs (len / 2) = some m' := by
  simp only [adapterStep]
  by_cases h2 : len % 2 = 1
  · simp [h2]
  · by_cases hcap : p.pbufCap < ofs + len
    · simp [h2, hcap, show ¬ ofs + len ≤ p.pbufCap by omega]
    · cases hs : m.swapPairs ofs (len / 2) <;>
        simp [hcap, show len % 2 = 0 by omega, show ofs + len ≤ p.pbufCap by omega]

/-- The adapter is refused in exactly three cases, tested in this order (60_exceptions R114). -/
theorem adapterStep_eq_error_iff (p : Params) (ofs len : Nat) (m : Memory) (e : Refusal) :
    adapterStep p ofs len m = .error e ↔
      (len % 2 = 1 ∧ e = .oddLength) ∨
      (len % 2 = 0 ∧ p.pbufCap < ofs + len ∧ e = .regionOutOfBounds) ∨
      (len % 2 = 0 ∧ ofs + len ≤ p.pbufCap ∧ (∃ k, k < len ∧ m.read (ofs + k) = none) ∧ e = .unwrittenCell) := by
  simp only [adapterStep]
  by_cases h2 : len % 2 = 1
  · simp [h2, eq_comm]
  · by_cases hcap : p.pbufCap < ofs + len
    · simp [hcap, show len % 2 = 0 by omega, show ¬ ofs + len ≤ p.pbufCap by omega, eq_comm]
    · have hiff := Memory.swapPairs_eq_none_iff m ofs (len / 2)
      rw [show 2 * (len / 2) = len by omega] at hiff
      cases hs : m.swapPairs ofs (len / 2) with
      | none =>
        have := hiff.1 hs
        simp only [h2, hcap, if_false, Except.error.injEq, false_and, false_or]
        exact ⟨fun h => Or.inr ⟨by omega, by omega, this, h.symm⟩,
          fun h => h.elim (fun g => g.2.elim) (fun g => g.2.2.2.symm)⟩
      | some m' =>
        have : ¬ ∃ k, k < len ∧ m.read (ofs + k) = none := fun g => by simp [hiff.2 g] at hs
        simp [h2, hcap, this]

/-- What the adapter leaves in each cell (41_byteswap R80, "Equivalently"). -/
theorem read_adapterStep {p : Params} {ofs len : Nat} {m m' : Memory} (h : adapterStep p ofs len m = .ok m')
    (c : Nat) :
    m'.read c =
      if ofs ≤ c ∧ c < ofs + len then (if (c - ofs) % 2 = 0 then m.read (c + 1) else m.read (c - 1))
      else m.read c := by
  obtain ⟨h2, -, hs⟩ := (adapterStep_eq_ok_iff p ofs len m m').1 h
  simpa [show 2 * (len / 2) = len by omega] using Memory.read_swapPairs hs c

/-- The adapter keeps the canonical form. -/
theorem adapterStep_wf {p : Params} {ofs len : Nat} {m m' : Memory} (hm : m.wf)
    (h : adapterStep p ofs len m = .ok m') : m'.wf :=
  Memory.swapPairs_wf hm ((adapterStep_eq_ok_iff p ofs len m m').1 h).2.2

/-- `SWAP` answers a next state exactly when the adapter answers (41_byteswap R80). -/
theorem execSwap_eq_next_iff (ofs len : Nat) (s t : State) :
    execSwap ofs len s = .next t ↔ ∃ m, adapterStep Config.params ofs len s.pbuf = .ok m ∧ t = s.setPbuf m :=
  commit_eq_next_iff s t _

end Sys2Proof.Machine
end

