-- ==== Sys2Proof/Laws/Checksum.lean ====
section
/-! SUPPORT. The Checksum Engine's step on the buffer: when it answers and with what, when it is refused, and
that it keeps the canonical form. -/

namespace Sys2Proof.Machine

@[simp] theorem crcFold_nil : crcFold [] = 0xFFFF := rfl

/-- One more byte is one more update (40_checksum R71). -/
@[simp] theorem crcFold_append_singleton (bytes : List Byte) (b : Byte) :
    crcFold (bytes ++ [b]) = crcStep (crcFold bytes) b := by
  simp [crcFold]

/-- The checksum step answers exactly when the length cell is defined, the frame fits and the region is defined;
it then writes the two checksum bytes and nothing else (40_checksum R72). -/
theorem checksumStep_eq_ok_iff (p : Params) (extra : Byte) (m m' : Memory) :
    checksumStep p extra m = .ok m' ↔
      ∃ l bytes, m.read 1 = some l ∧ l.toNat + 8 ≤ p.pbufCap ∧ m.readN 1 (5 + l.toNat) = some bytes ∧
        m' = m.write16LE (6 + l.toNat) (crcFold (bytes ++ [extra])) := by
  simp only [checksumStep]
  cases hl : m.read 1 with
  | none => simp
  | some l =>
    by_cases hcap : p.pbufCap < l.toNat + 8
    · simp [hcap, show ¬ l.toNat + 8 ≤ p.pbufCap by omega]
    · cases hb : m.readN 1 (5 + l.toNat) with
      | none => simp [hcap, hb]
      | some bytes =>
        simp only [hcap, hb, if_false, Except.ok.injEq, Option.some.injEq]
        constructor
        · rintro rfl; exact ⟨l, bytes, rfl, by omega, hb, rfl⟩
        · rintro ⟨l', bytes', rfl, -, hb', rfl⟩
          rw [hb] at hb'; cases hb'; rfl

/-- The checksum step is refused in exactly three cases, tested in this order (60_exceptions R114). -/
theorem checksumStep_eq_error_iff (p : Params) (extra : Byte) (m : Memory) (e : Refusal) :
    checksumStep p extra m = .error e ↔
      (m.read 1 = none ∧ e = .unwrittenCell) ∨
      (∃ l, m.read 1 = some l ∧ p.pbufCap < l.toNat + 8 ∧ e = .regionOutOfBounds) ∨
      (∃ l, m.read 1 = some l ∧ l.toNat + 8 ≤ p.pbufCap ∧ m.readN 1 (5 + l.toNat) = none ∧ e = .unwrittenCell) := by
  simp only [checksumStep]
  cases hl : m.read 1 with
  | none => simp [eq_comm]
  | some l =>
    by_cases hcap : p.pbufCap < l.toNat + 8
    · simp [hcap, show ¬ l.toNat + 8 ≤ p.pbufCap by omega, eq_comm]
    · cases hb : m.readN 1 (5 + l.toNat) with
      | none => simp [hcap, hb, show l.toNat + 8 ≤ p.pbufCap by omega, eq_comm]
      | some bytes => simp [hcap, hb]

/-- The checksum step keeps the canonical form. -/
theorem checksumStep_wf {p : Params} {extra : Byte} {m m' : Memory} (hm : m.wf)
    (h : checksumStep p extra m = .ok m') : m'.wf := by
  obtain ⟨l, bytes, -, -, -, rfl⟩ := (checksumStep_eq_ok_iff p extra m m').1 h
  exact Memory.write16LE_wf hm _ _

/-- `CRC` answers a next state exactly when the checksum step answers (40_checksum R72). -/
theorem execCrc_eq_next_iff (extra : Byte) (s t : State) :
    execCrc extra s = .next t ↔ ∃ m, checksumStep Config.params extra s.pbuf = .ok m ∧ t = s.setPbuf m :=
  commit_eq_next_iff s t _

end Sys2Proof.Machine
end

