-- ==== Sys2Proof/Laws/Config.lean ====
section
/-! SUPPORT. The parameters of this machine meet the constraints of 00_scope R4 by the way they are built. -/

namespace Sys2Proof

theorem printableAt_printable (i : Fin 95) : printable (printableAt i) := by
  obtain ⟨k, hk⟩ := i
  simp only [printable, printableAt, BitVec.toNat_ofNat]
  omega

/-- Every printable character is one that `printableAt` names, so no value of SYSID or COMPID is shut out. -/
theorem printableAt_surjective {b : Byte} (h : printable b) : ∃ i, printableAt i = b := by
  refine ⟨⟨b.toNat - 0x20, by have := h.1; have := h.2; omega⟩, ?_⟩
  apply BitVec.eq_of_toNat_eq
  have := h.1; have := h.2
  simp only [printableAt, BitVec.toNat_ofNat]
  omega

theorem Config.params_legal : Config.params.Legal where
  sysid_printable := printableAt_printable _
  compid_printable := printableAt_printable _
  pbufCap_ge := Nat.le_add_left _ _
  nNodes_ge := Nat.le_add_left _ _
  spaceW_ge := Nat.le_add_left _ _

end Sys2Proof
end

