-- ==== Sys2Proof/Laws/Decode.lean ====
section
/-! SUPPORT. The fields of a command word as numbers, that the three make up the word, and what the encoder puts
into each (30_encoding R51, R53). -/

namespace Sys2Proof

/-- What the check of a `SWAP` asks of its operands. -/
theorem wellFormed_swap_iff (ofs len : Nat) : WellFormed (.swap ofs len) ↔ ofs ≤ 255 ∧ len ≤ 255 := by
  simp [WellFormed, wellFormed]

theorem toNat_opField (w : CommandWord) : (opField w).toNat = w.toNat % 4 := by
  simp [opField, BitVec.extractLsb'_toNat]

theorem toNat_aField (w : CommandWord) : (aField w).toNat = w.toNat / 4 % 256 := by
  simp [aField, BitVec.extractLsb'_toNat, Nat.shiftRight_eq_div_pow]

theorem toNat_bField (w : CommandWord) : (bField w).toNat = w.toNat / 1024 % 256 := by
  simp [bField, BitVec.extractLsb'_toNat, Nat.shiftRight_eq_div_pow]

/-- The three fields are the whole word: no bit of a command lies outside them. -/
theorem toNat_eq_fields (w : CommandWord) :
    w.toNat = (bField w).toNat * 1024 + (aField w).toNat * 4 + (opField w).toNat := by
  rw [toNat_opField, toNat_aField, toNat_bField]
  have := w.isLt
  omega

/-- Words with the same fields are the same word. -/
theorem word_ext_fields {w w' : CommandWord} (hop : opField w = opField w') (ha : aField w = aField w')
    (hb : bField w = bField w') : w = w' := by
  apply BitVec.eq_of_toNat_eq
  rw [toNat_eq_fields w, toNat_eq_fields w', hop, ha, hb]

/-- The fields of three concatenated ones. -/
theorem toNat_append_fields (b a : BitVec 8) (op : BitVec 2) :
    (b ++ a ++ op : CommandWord).toNat = b.toNat * 1024 + a.toNat * 4 + op.toNat := by
  have hlow : ∀ n : Nat, n <<< 2 ||| op.toNat = n * 4 + op.toNat := fun n => by
    rw [← Nat.shiftLeft_add_eq_or_of_lt (by simpa using op.isLt), Nat.shiftLeft_eq]
  have hmid : b.toNat <<< 8 ||| a.toNat = b.toNat * 256 + a.toNat := by
    rw [← Nat.shiftLeft_add_eq_or_of_lt (by simpa using a.isLt), Nat.shiftLeft_eq]
  simp only [BitVec.toNat_append, hlow, hmid]
  ring

@[simp] theorem opField_append (b a : BitVec 8) (op : BitVec 2) : opField (b ++ a ++ op : CommandWord) = op := by
  apply BitVec.eq_of_toNat_eq
  rw [toNat_opField, toNat_append_fields]
  have := op.isLt
  omega

@[simp] theorem aField_append (b a : BitVec 8) (op : BitVec 2) : aField (b ++ a ++ op : CommandWord) = a := by
  apply BitVec.eq_of_toNat_eq
  rw [toNat_aField, toNat_append_fields]
  have := op.isLt
  have := a.isLt
  omega

@[simp] theorem bField_append (b a : BitVec 8) (op : BitVec 2) : bField (b ++ a ++ op : CommandWord) = b := by
  apply BitVec.eq_of_toNat_eq
  rw [toNat_bField, toNat_append_fields]
  have := op.isLt
  have := a.isLt
  have := b.isLt
  omega

end Sys2Proof
end

