-- ==== Sys2Proof/Laws/PerInstr.lean ====
section
/-! SUPPORT. One statement for each operation: its command word lies in its row of spec/opcode_table.json, and has
the row's fixed fields. -/

namespace Sys2Proof.Laws.TableRow

/-- The word of the operation has the fixed fields of its row: `op`, and the fields that must be zero
(30_encoding R51, R54, R55, R56). -/
def Statement (i : Sys2Proof.Instr) : Prop :=
  match i with
  | .crc _ => Sys2Proof.opField (Sys2Proof.encode i) = 0b01#2 ∧ Sys2Proof.bField (Sys2Proof.encode i) = 0#8
  | .swap _ _ => Sys2Proof.opField (Sys2Proof.encode i) = 0b10#2
  | .report => Sys2Proof.encode i = 0x00003#18

theorem crc (extra : Sys2Proof.Byte) : Statement (.crc extra) := by
  simp only [Statement, encode, opField_append, bField_append, and_self]

theorem swap (ofs len : Nat) : Statement (.swap ofs len) := by
  simp only [Statement, encode, opField_append]

theorem report : Statement .report := by
  unfold Statement
  decide

end Sys2Proof.Laws.TableRow
end

