-- ==== Sys2Proof/Laws/Report.lean ====
section
/-! SUPPORT. The Report Builder: what each of its steps leaves in the buffer, that with legal parameters the frame
is always built, and what `REPORT` can answer. -/

namespace Sys2Proof.Machine

@[simp] theorem gateOpen_iff (n : Nat) : gateOpen n = true ↔ 17 ≤ n :=
  Iff.of_eq Nat.ble_eq

@[simp] theorem isBase_iff (n : Nat) : isBase n = true ↔ n = 0 := by simp [isBase]

/-- The role mux answers exactly for an identity inside the tables whose two entries exist (42_report R95). -/
theorem roleSelect_eq_ok_iff (p : Params) (inp : Inputs) (sel : Selected) :
    roleSelect p inp = .ok sel ↔
      inp.nodeId < p.nNodes ∧
      ∃ l r, inp.stat[if inp.nodeId = 0 then 1 else inp.nodeId]? = some l ∧
        inp.rstat[if inp.nodeId = 0 then 1 else 0]? = some r ∧ sel = ⟨l.rssi, r.rssi, l.noise, r.noise⟩ := by
  have hidx : roleIndices inp.nodeId =
      (if inp.nodeId = 0 then 1 else inp.nodeId, if inp.nodeId = 0 then 1 else 0) := by
    by_cases h : inp.nodeId = 0 <;> simp [roleIndices, h]
  simp only [roleSelect, hidx]
  by_cases hn : p.nNodes ≤ inp.nodeId
  · simp [hn, show ¬ inp.nodeId < p.nNodes by omega]
  · rw [if_neg hn]
    cases inp.stat[if inp.nodeId = 0 then 1 else inp.nodeId]? <;>
      cases inp.rstat[if inp.nodeId = 0 then 1 else 0]? <;>
        simp [show inp.nodeId < p.nNodes by omega, eq_comm]

/-- With the tables the ports carry, the identity decides alone whether the role mux answers. -/
theorem roleSelect_of_fits {p : Params} {inp : Inputs} (hp : p.Legal) (hfit : inp.Fits p)
    (hn : inp.nodeId < p.nNodes) : ∃ sel, roleSelect p inp = .ok sel := by
  have h2 := hp.nNodes_ge
  have hl : (if inp.nodeId = 0 then 1 else inp.nodeId) < inp.stat.length := by rw [hfit.1]; split <;> omega
  have hr : (if inp.nodeId = 0 then 1 else 0) < inp.rstat.length := by rw [hfit.2.1]; split <;> omega
  exact ⟨_, (roleSelect_eq_ok_iff p inp _).2 ⟨hn, _, _, List.getElem?_eq_getElem hl, List.getElem?_eq_getElem hr, rfl⟩⟩

/-- Bytes f0 to f14 as the builder first stores them, the counters in the native order (42_report R97). -/
def nativeBody (p : Params) (inp : Inputs) (sel : Selected) (seq : Byte) : List Byte :=
  [p.stx, 9, seq, p.sysid, p.compid, p.msgid] ++ fieldBytes p.nativeOrder inp.rxErrors ++
    fieldBytes p.nativeOrder inp.corrected ++
    [sel.rssi, sel.remrssi, p.txbufEnc inp.s2, sel.noise, sel.remnoise]

/-- What steps 1 to 4 leave in each cell (42_report R91, R93 to R96). -/
theorem read_writeFields (p : Params) (inp : Inputs) (sel : Selected) (seq : Byte) (m : Memory) (c : Nat) :
    (writeFields p inp sel seq m).read c =
      if c < 15 then (nativeBody p inp sel seq)[c]? else m.read c := by
  cases ho : p.nativeOrder <;> by_cases h : c < 15
  all_goals first
    | rw [if_pos h]; interval_cases c <;>
        simp [writeFields, writeMsgid, writeSelected, writeSpace, writeCounters, writeHeader, nativeBody,
          fieldBytes, ho, payloadLen]
    | rw [if_neg h]
      have hc (k : Nat) (hk : k < 15) : c ≠ k := by omega
      simp [writeFields, writeMsgid, writeSelected, writeSpace, writeCounters, writeHeader, fieldBytes, ho, hc]

/-- Steps 1 to 4 keep the canonical form. -/
theorem writeFields_wf {p : Params} {inp : Inputs} {sel : Selected} {seq : Byte} {m : Memory} (hm : m.wf) :
    (writeFields p inp sel seq m).wf := by
  unfold writeFields writeMsgid writeSelected writeSpace writeCounters writeHeader
  repeat' apply Memory.write_wf
  exact Memory.writeN_wf (Memory.writeN_wf (Memory.writeN_wf hm _ _) _ _) _ _

/-- After the adapter step the counters stand in the wire's order whatever the native order is (42_report R97). -/
theorem adaptOrder_writeFields {p : Params} (hp : p.Legal) (inp : Inputs) (sel : Selected) (seq : Byte)
    (m : Memory) :
    ∃ m', adaptOrder p (writeFields p inp sel seq m) = .ok m' ∧ (m.wf → m'.wf) ∧
      ∀ c, m'.read c = if c < 15 then (frameBody p inp sel seq)[c]? else m.read c := by
  cases ho : p.nativeOrder with
  | little =>
    refine ⟨writeFields p inp sel seq m, by simp [adaptOrder, ho], writeFields_wf, fun c => ?_⟩
    rw [read_writeFields]
    simp [nativeBody, frameBody, ho, fieldBytes]
  | big =>
    have hcap := hp.pbufCap_ge
    cases ha : adapterStep p 6 4 (writeFields p inp sel seq m) with
    | error e =>
      exfalso
      rcases (adapterStep_eq_error_iff _ _ _ _ _).1 ha with h | h | ⟨-, -, ⟨k, hk, hr⟩, -⟩
      · omega
      · omega
      · rw [read_writeFields, if_pos (by omega)] at hr
        interval_cases k <;> simp [nativeBody, fieldBytes, ho] at hr
    | ok m' =>
      refine ⟨m', by simp [adaptOrder, ho, ha], fun hm => adapterStep_wf (writeFields_wf hm) ha, fun c => ?_⟩
      rw [read_adapterStep ha]
      by_cases h : c < 15
      · rw [if_pos h]
        interval_cases c <;> simp [read_writeFields, nativeBody, frameBody, ho, fieldBytes]
      · rw [if_neg h, if_neg (by omega), read_writeFields, if_neg h]

@[simp] theorem length_frameBody (p : Params) (inp : Inputs) (sel : Selected) (seq : Byte) :
    (frameBody p inp sel seq).length = 15 := rfl

@[simp] theorem length_wireFrame (p : Params) (inp : Inputs) (sel : Selected) (seq : Byte) :
    (wireFrame p inp sel seq).length = 17 := rfl

/-- Below the checksum a byte of the wire frame is that byte of the body. -/
theorem wireFrame_getElem?_of_lt (p : Params) (inp : Inputs) (sel : Selected) (seq : Byte) {a : Nat} (h : a < 15) :
    (wireFrame p inp sel seq)[a]? = (frameBody p inp sel seq)[a]? := by
  rw [wireFrame, List.getElem?_append_left (by simpa using h)]

/-- A buffer whose offsets 0 to 16 are a wire frame: its length cell, its checksummed region and its checksum
cells (40_checksum R73, 42_report R98). -/
theorem frame_region {p : Params} {inp : Inputs} {sel : Selected} {seq : Byte} {m : Memory}
    (h : ∀ c, c < 17 → m.read c = (wireFrame p inp sel seq)[c]?) :
    m.read 1 = some 9 ∧ m.readN 1 14 = some ((frameBody p inp sel seq).drop 1) ∧
    m.read 15 = some (lo8 (frameChecksum p inp sel seq)) ∧
    m.read 16 = some (hi8 (frameChecksum p inp sel seq)) := by
  refine ⟨by rw [h 1 (by omega)]; rfl, ?_, by rw [h 15 (by omega)]; rfl, by rw [h 16 (by omega)]; rfl⟩
  refine (Memory.readN_eq_some_iff _ _ _ _).2 ⟨rfl, fun k hk => ?_⟩
  rw [h _ (by omega), wireFrame_getElem?_of_lt _ _ _ _ (by omega), List.getElem?_drop]

/-- With legal parameters the frame is always built: offsets 0 to 16 are the wire frame and no other cell
changes (42_report R102), whatever the buffer held before. -/
theorem buildFrame_eq_ok {p : Params} (hp : p.Legal) (inp : Inputs) (sel : Selected) (seq : Byte) (m : Memory) :
    ∃ m', buildFrame p inp sel seq m = .ok m' ∧ (m.wf → m'.wf) ∧
      ∀ c, m'.read c = if c < 17 then (wireFrame p inp sel seq)[c]? else m.read c := by
  obtain ⟨m1, h1, hwf, hread⟩ := adaptOrder_writeFields hp inp sel seq m
  have hcap := hp.pbufCap_ge
  have hlen : m1.read 1 = some 9 := by rw [hread, if_pos (by omega)]; rfl
  have hregion : m1.readN 1 (5 + (9 : Byte).toNat) = some ((frameBody p inp sel seq).drop 1) :=
    (Memory.readN_eq_some_iff _ _ _ _).2 ⟨rfl, fun k hk => by
      rw [hread, if_pos (by simp at hk; omega), List.getElem?_drop]⟩
  have hck := (checksumStep_eq_ok_iff p p.crcExtraRs m1 _).2
    ⟨9, _, hlen, by simpa using hcap, hregion, rfl⟩
  refine ⟨_, by simp only [buildFrame, h1]; exact hck, fun hm => Memory.write16LE_wf (hwf hm) _ _, fun c => ?_⟩
  rw [Memory.read_write16LE, hread, show 6 + (9 : Byte).toNat = 15 from rfl]
  by_cases h15 : c = 15
  · subst h15; rfl
  · by_cases h16 : c = 16
    · subst h16; rfl
    · rw [if_neg h15, if_neg h16]
      by_cases hlt : c < 15
      · rw [if_pos hlt, if_pos (by omega), wireFrame, List.getElem?_append_left (by simpa using hlt)]
      · rw [if_neg hlt, if_neg (by omega)]

/-- The frame in the buffer is what the transmit step reads (42_report R100). -/
theorem readN_of_frame {m' m : Memory} {f : List Byte} (hf : f.length = 17)
    (h : ∀ c, m'.read c = if c < 17 then f[c]? else m.read c) : m'.readN 0 pktLen = some f :=
  (Memory.readN_eq_some_iff _ _ _ _).2 ⟨hf, fun k hk => by
    rw [h, Nat.zero_add, if_pos (by simpa [pktLen, payloadLen, overhead] using hk)]⟩

/-- What `REPORT` can answer (42_report R90): a refusal of the role mux, or a next state with the frame in the
buffer, the sequence counter advanced, and the frame written if and only if the gate is open. -/
theorem reportWith_cases {p : Params} (hp : p.Legal) (s : State) :
    (∃ e, roleSelect p s.inputs = .error e ∧ reportWith p s = .refused e) ∨
    (∃ sel m, roleSelect p s.inputs = .ok sel ∧ buildFrame p s.inputs sel s.seq s.pbuf = .ok m ∧
      (s.pbuf.wf → m.wf) ∧
      (∀ c, m.read c = if c < 17 then (wireFrame p s.inputs sel s.seq)[c]? else s.pbuf.read c) ∧
      reportWith p s = .next
        (if 17 ≤ s.inputs.s6 then
          ((s.setSeq (s.seq + 1)).setPbuf m).pushWrite (wireFrame p s.inputs sel s.seq)
        else (s.setSeq (s.seq + 1)).setPbuf m)) := by
  cases hsel : roleSelect p s.inputs with
  | error e => exact Or.inl ⟨e, rfl, by simp [reportWith, hsel]⟩
  | ok sel =>
    obtain ⟨m, hb, hwf, hread⟩ := buildFrame_eq_ok hp s.inputs sel s.seq s.pbuf
    refine Or.inr ⟨sel, m, rfl, hb, hwf, hread, ?_⟩
    simp only [reportWith, hsel, hb, transmit]
    by_cases hg : 17 ≤ s.inputs.s6
    · simp [hg, readN_of_frame (length_wireFrame p s.inputs sel s.seq) hread]
    · have : gateOpen s.inputs.s6 = false := by
        rw [Bool.eq_false_iff]; exact fun h => hg ((gateOpen_iff _).1 h)
      simp [hg, this]

/-- The wire frame is a valid status report (30_encoding R61). -/
theorem wireFrame_valid (p : Params) (inp : Inputs) (sel : Selected) (seq : Byte) :
    ValidFrame p (wireFrame p inp sel seq) := by
  constructor <;> rfl

end Sys2Proof.Machine
end

