-- ==== Sys2Proof/Laws/Step.lean ====
section
/-! SUPPORT. What one step can do, once for each kind of move, and what an operation can answer. -/

namespace Sys2Proof.Machine

/-- What an operation can answer, said once: a next state is the old one with a new buffer (`CRC`, `SWAP`), or
that of a report; no operation faults. -/
theorem exec_next_cases {i : Instr} {s t : State} (h : exec i s = .next t) :
    (∃ extra m, i = .crc extra ∧ checksumStep Config.params extra s.pbuf = .ok m ∧ t = s.setPbuf m) ∨
    (∃ ofs len m, i = .swap ofs len ∧ adapterStep Config.params ofs len s.pbuf = .ok m ∧ t = s.setPbuf m) ∨
    (∃ sel m, i = .report ∧ roleSelect Config.params s.inputs = .ok sel ∧ (s.pbuf.wf → m.wf) ∧
      (∀ c, m.read c =
        if c < 17 then (wireFrame Config.params s.inputs sel s.seq)[c]? else s.pbuf.read c) ∧
      t = if 17 ≤ s.inputs.s6 then
          ((s.setSeq (s.seq + 1)).setPbuf m).pushWrite (wireFrame Config.params s.inputs sel s.seq)
        else (s.setSeq (s.seq + 1)).setPbuf m) := by
  cases i with
  | crc extra =>
    obtain ⟨m, hm, rfl⟩ := (execCrc_eq_next_iff extra s t).1 h
    exact Or.inl ⟨extra, m, rfl, hm, rfl⟩
  | swap ofs len =>
    obtain ⟨m, hm, rfl⟩ := (execSwap_eq_next_iff ofs len s t).1 h
    exact Or.inr (Or.inl ⟨ofs, len, m, rfl, hm, rfl⟩)
  | report =>
    have h' : reportWith Config.params s = .next t := h
    rcases reportWith_cases Config.params_legal s with ⟨e, -, he⟩ | ⟨sel, m, hsel, -, hwf, hread, hn⟩
    · rw [he] at h'; cases h'
    · rw [hn] at h'; cases h'
      exact Or.inr (Or.inr ⟨sel, m, rfl, hsel, hwf, hread, rfl⟩)

/-- With no pending move a step changes nothing. -/
theorem step_of_idle {s : State} (h : s.host = []) : step s = .next s := by
  simp [step, State.takeMove, h, portIdle]

/-- A command word that decodes runs its operation, in the state without that move. -/
theorem step_of_command {s : State} {w : CommandWord} {rest : List HostMove} {i : Instr}
    (h : s.host = .command w :: rest) (hd : decode w = .ok i) : step s = exec i (s.setHost rest) := by
  simp [step, State.takeMove, h, fetchCommand, hd]

/-- A reserved word is refused. -/
theorem step_of_reserved {s : State} {w : CommandWord} {rest : List HostMove} {e : DecodeError}
    (h : s.host = .command w :: rest) (hd : decode w = .error e) : step s = .refused .reservedEncoding := by
  cases e
  simp [step, State.takeMove, h, fetchCommand, hd]

theorem step_of_write {s : State} {a : Nat} {b : Byte} {rest : List HostMove} (h : s.host = .write a b :: rest) :
    step s = hostWrite a b (s.setHost rest) := by
  simp [step, State.takeMove, h]

theorem step_of_read {s : State} {a : Nat} {rest : List HostMove} (h : s.host = .read a :: rest) :
    step s = hostRead a (s.setHost rest) := by
  simp [step, State.takeMove, h]

theorem step_of_present {s : State} {inp : Inputs} {rest : List HostMove} (h : s.host = .present inp :: rest) :
    step s = hostPresent inp (s.setHost rest) := by
  simp [step, State.takeMove, h]

/-- What a step that answers can have done, said once. -/
theorem step_next_cases {s t : State} (h : step s = .next t) :
    (s.host = [] ∧ t = s) ∨
    (∃ w rest i, s.host = .command w :: rest ∧ decode w = .ok i ∧ exec i (s.setHost rest) = .next t) ∨
    (∃ a b rest, s.host = .write a b :: rest ∧ a < Config.params.pbufCap ∧
      t = (s.setHost rest).setPbuf (s.pbuf.write a b)) ∨
    (∃ a rest, s.host = .read a :: rest ∧ a < Config.params.pbufCap ∧
      t = (s.setHost rest).pushRead (readCell (s.setHost rest) a)) ∨
    (∃ inp rest, s.host = .present inp :: rest ∧ inp.Fits Config.params ∧
      t = (s.setHost rest).setInputs inp) := by
  cases hh : s.host with
  | nil => rw [step_of_idle hh] at h; cases h; exact Or.inl ⟨rfl, rfl⟩
  | cons move rest =>
    cases move with
    | command w =>
      cases hd : decode w with
      | error e => rw [step_of_reserved hh hd] at h; cases h
      | ok i => rw [step_of_command hh hd] at h; exact Or.inr (Or.inl ⟨w, rest, i, rfl, hd, h⟩)
    | write a b =>
      rw [step_of_write hh] at h
      simp only [hostWrite, writeCellWith] at h
      split at h
      · cases h; exact Or.inr (Or.inr (Or.inl ⟨a, b, rest, rfl, ‹_›, rfl⟩))
      · cases h
    | read a =>
      rw [step_of_read hh] at h
      simp only [hostRead, readCellWith] at h
      split at h
      · cases h; exact Or.inr (Or.inr (Or.inr (Or.inl ⟨a, rest, rfl, ‹_›, rfl⟩)))
      · cases h
    | present inp =>
      rw [step_of_present hh] at h
      simp only [hostPresent, presentWith] at h
      split at h
      · cases h; exact Or.inr (Or.inr (Or.inr (Or.inr ⟨inp, rest, rfl, ‹_›, rfl⟩)))
      · cases h

end Sys2Proof.Machine
end

