-- ==== Sys2Proof/Tests/Slice0.lean ====
section
/-! SUPPORT. The model's own tests: ill-formed terms, words written out bit by bit from the spec's encodings, the
spec's worked vectors on one step each, and for every statement with hypotheses a state that meets them all. -/

namespace Sys2Proof.Tests

open Sys2Proof.Machine

/-! ### Well-formedness -/

/-- An offset no command word can name (30_encoding R53). -/
theorem test_wellFormed_refuses_ofs : ¬ WellFormed (.swap 256 4) := by decide
/-- A length no command word can name (30_encoding R53). -/
theorem test_wellFormed_refuses_len : ¬ WellFormed (.swap 6 256) := by decide
/-- An odd length is well-formed: only the operation is refused (30_encoding R55). -/
theorem test_wellFormed_odd_len : WellFormed (.swap 6 3) := by decide

/-! ### Decoding: words bit by bit, `B A op` as 30_encoding R54 to R56 write them -/

/-- `00000000 eeeeeeee 01` with `extra = 0xB9` (30_encoding R54, 95 V-D2). -/
theorem test_decode_crc : decode 0b000000001011100101#18 = .ok (.crc 0xB9#8) := by decide
/-- `llllllll oooooooo 10` with `ofs = 6`, `len = 4` (30_encoding R55, 95 V-D5). -/
theorem test_decode_swap : decode 0b000001000000011010#18 = .ok (.swap 6 4) := by decide
/-- `00000000 00000000 11` (30_encoding R56, 95 V-D1). -/
theorem test_decode_report : decode 0b000000000000000011#18 = .ok .report := by decide
/-- `op = 00` and must-be-zero fields (95 V-D11, V-D12, V-D14). -/
theorem test_decode_reserved :
    decode 0x00004#18 = .error .reservedEncoding ∧ decode 0x00007#18 = .error .reservedEncoding ∧
    decode 0x00401#18 = .error .reservedEncoding := by decide
/-- The table's numbering: 18 bits, or the 24 of whole bytes; a 19-bit number is no command word. -/
theorem test_decodeTableWord :
    decodeTableWord 18 0x0101A = some (.swap 6 4) ∧ decodeTableWord 24 0x00003 = some .report ∧
    decodeTableWord 24 0x40003 = none := by decide

/-! ### The spec's vectors -/

/-- The parameter set `P_MAV` (30_encoding R62), used by the tests only, with the small capacity and tables of the
programs (95 section 3) and the transmit-space field the low byte of the count. -/
def pMav : Params where
  stx := 0xFE
  sysid := 0x33
  compid := 0x44
  msgid := 0x6D
  crcExtraRs := 0xB9
  pbufCap := 32
  nNodes := 3
  spaceW := 16
  txbufEnc := fun n => BitVec.ofNat 8 n
  nativeOrder := .little

/-- The buffer whose cells from offset 0 are these bytes. -/
def bufferOf (bytes : List Byte) : Memory := Memory.writeN [] 0 bytes

/-- The reset state with that buffer. -/
def stateOf (bytes : List Byte) : State := State.reset.setPbuf (bufferOf bytes)

/-- What a next state's buffer reads as from offset 0; nothing where there is no next state. -/
def bufferAfter (o : Host.Outcome State Fault Refusal) (n : Nat) : Option (List Byte) :=
  match o with
  | .next t => t.pbuf.readN 0 n
  | _ => none

/-- A next state's sequence counter and transport writes. -/
def outputAfter (o : Host.Outcome State Fault Refusal) : Option (Byte × List (List Byte)) :=
  match o with
  | .next t => some (t.seq, t.writes)
  | _ => none

/-- Whether the outcome is that refusal. -/
def isRefused (o : Host.Outcome State Fault Refusal) (e : Refusal) : Bool :=
  match o with
  | .refused r => r == e
  | _ => false

/-- 95 V-F3 and V-F4: the check value, and its residue. -/
theorem test_crcFold_check :
    crcFold [0x31, 0x32, 0x33, 0x34, 0x35, 0x36, 0x37, 0x38, 0x39] = 0x6F91#16 ∧
    crcFold [0x31, 0x32, 0x33, 0x34, 0x35, 0x36, 0x37, 0x38, 0x39, 0x91, 0x6F] = 0x0000#16 := by decide

/-- 95 V-C1: `CRC 0xB9` on a two-byte payload. -/
theorem test_crc_small_payload :
    bufferAfter (crcWith pMav 0xB9 (stateOf [0xFE, 0x02, 0x00, 0x33, 0x44, 0x6D, 0x34, 0x12])) 10 =
      some [0xFE, 0x02, 0x00, 0x33, 0x44, 0x6D, 0x34, 0x12, 0xB3, 0x29] := by decide

/-- 95 V-X2: `10 + 8 > 17`, although every cell of the region, offsets 1 to 15, is written. -/
theorem test_crc_out_of_bounds :
    isRefused (crcWith { pMav with pbufCap := 17 } 0xB9 (stateOf [0xFE, 0x0A, 0, 0, 0, 0, 0, 0, 0, 0, 0, 0, 0, 0, 0, 0]))
      .regionOutOfBounds = true := by decide

/-- 95 V-W2: an odd offset, pairs counted from it. -/
theorem test_swap_odd_offset :
    bufferAfter (swapWith pMav 1 4 (stateOf [0x00, 0x11, 0x22, 0x33, 0x44, 0x55, 0x66, 0x77, 0x88, 0x99])) 10 =
      some [0x00, 0x22, 0x11, 0x44, 0x33, 0x55, 0x66, 0x77, 0x88, 0x99] := by decide

/-- 95 V-W9, V-W10: an odd length before the bounds, and the bounds. -/
theorem test_swap_refusals :
    isRefused (swapWith { pMav with pbufCap := 17 } 16 3 (stateOf [])) .oddLength = true ∧
    isRefused (swapWith { pMav with pbufCap := 10 } 8 4 (stateOf [0, 0, 0, 0, 0, 0, 0, 0, 0, 0]))
      .regionOutOfBounds = true := by decide

/-- 95 V-E1: the end-to-end scenario from a base node. -/
theorem test_report_end_to_end :
    outputAfter (reportWith pMav (State.reset.setInputs
      { rxErrors := 5, corrected := 2, nodeId := 0, stat := [⟨1, 2⟩, ⟨200, 10⟩, ⟨3, 4⟩],
        rstat := [⟨5, 6⟩, ⟨180, 8⟩, ⟨7, 9⟩], s2 := 100, s6 := 1000 })) =
      some (1, [[0xFE, 0x09, 0x00, 0x33, 0x44, 0x6D, 0x05, 0x00, 0x02, 0x00, 0xC8, 0xB4, 0x64, 0x0A, 0x08,
        0xC9, 0x4D]]) := by decide

/-- 95 P2, second report: a remote node on the big path, sequence FF wraps, 16 bytes of space: dropped, and the
frame is in the buffer. -/
theorem test_report_dropped :
    let o := reportWith { pMav with nativeOrder := .big } ((State.reset.setSeq 0xFF).setInputs
      { rxErrors := 0x1234, corrected := 0xABCD, nodeId := 2, stat := [⟨0, 0⟩, ⟨0x11, 0x12⟩, ⟨0x51, 0x61⟩],
        rstat := [⟨0x40, 0x50⟩, ⟨0x13, 0x14⟩, ⟨0x15, 0x16⟩], s2 := 0x20, s6 := 16 })
    outputAfter o = some (0, []) ∧
    bufferAfter o 17 = some [0xFE, 0x09, 0xFF, 0x33, 0x44, 0x6D, 0x34, 0x12, 0xCD, 0xAB, 0x51, 0x40, 0x20, 0x61,
      0x50, 0xB7, 0x5B] := by decide

/-- A step from reset on a placed word, whatever the open parameters are: `SWAP 0, 0` answers and `CRC` is refused
(95 V-X4, V-X1); the step on `REPORT`'s word is `REPORT`. -/
theorem test_step_from_reset :
    bufferAfter (step (State.reset.withFetchWord 18 0x00002)) 0 = some [] ∧
    isRefused (step (State.reset.withFetchWord 18 0x002E5)) .unwrittenCell = true ∧
    step (State.reset.withFetchWord 18 0x00003) = exec .report State.reset :=
  ⟨by decide, by decide, rfl⟩

/-! ### Witnesses: the helper states -/

theorem seventeen_le_cap : 17 ≤ Config.params.pbufCap := Config.params_legal.pbufCap_ge

/-- Eight cells with the length byte 2 (95 V-C1). -/
def crcState : State := stateOf [0xFE, 0x02, 0x00, 0x33, 0x44, 0x6D, 0x34, 0x12]

/-- The same frame with its checksum for the seed 0xB9 (95 V-C1), and the host about to change offset 6 (V-C7). -/
def staleState : State :=
  (stateOf [0xFE, 0x02, 0x00, 0x33, 0x44, 0x6D, 0x34, 0x12, 0xB3, 0x29]).setHost [.write 6 0x35]

theorem crcState_completes : ∃ t, exec (.crc 0xB9) crcState = .next t := by
  have hcap := seventeen_le_cap
  exact ⟨_, (execCrc_eq_next_iff _ _ _).2 ⟨_, (checksumStep_eq_ok_iff _ _ _ _).2
    ⟨2, [0x02, 0x00, 0x33, 0x44, 0x6D, 0x34, 0x12], by decide, by simp; omega, by decide, rfl⟩, rfl⟩⟩

theorem crcState_swaps : ∃ t, exec (.swap 6 2) crcState = .next t := by
  have hcap := seventeen_le_cap
  exact ⟨_, (execSwap_eq_next_iff _ _ _ _).2 ⟨_, (adapterStep_eq_ok_iff _ _ _ _ _).2
    ⟨rfl, by omega, rfl⟩, rfl⟩⟩

theorem reset_inputs_fit : Inputs.reset.Fits Config.params := by
  refine ⟨by simp [Inputs.reset], by simp [Inputs.reset], ?_, ?_⟩ <;> exact Nat.two_pow_pos _

theorem zero_lt_nodes : 0 < Config.params.nNodes := by
  have := Config.params_legal.nNodes_ge
  omega

/-- Every state whose inputs fit and whose identity is inside the tables reports. -/
theorem report_completes {s : State} (hf : s.inputs.Fits Config.params)
    (hn : s.inputs.nodeId < Config.params.nNodes) :
    ∃ t, exec .report s = .next t ∧ t.inputs = s.inputs := by
  obtain ⟨sel, hsel⟩ := roleSelect_of_fits Config.params_legal hf hn
  rcases reportWith_cases Config.params_legal s with ⟨e, he, -⟩ | ⟨_, m, -, -, -, -, h⟩
  · rw [hsel] at he; cases he
  · exact ⟨_, h, by split <;> rfl⟩

/-- The reset state, its inputs those of node `k` with 17 bytes of space at step 6. -/
def nodeState (k : Nat) : State := State.reset.setInputs { Inputs.reset with nodeId := k, s6 := 17 }

theorem nodeState_fits (k : Nat) : (nodeState k).inputs.Fits Config.params := by
  refine ⟨by simp [nodeState, Inputs.reset], by simp [nodeState, Inputs.reset], Nat.two_pow_pos _, ?_⟩
  have h5 : 2 ^ 5 ≤ 2 ^ Config.params.spaceW := Nat.pow_le_pow_right (by omega) Config.params_legal.spaceW_ge
  show 17 < 2 ^ Config.params.spaceW
  omega

/-! ### Witnesses: one for each statement with hypotheses -/

theorem witness_DecodeOfEncode : WellFormed (.crc 0xFF) ∧ WellFormed (.swap 255 255) ∧ WellFormed .report := by
  decide
theorem witness_EncodeOfDecode : decode 0x3FFFE#18 = .ok (.swap 255 255) := by decide
theorem witness_EncodingsAreTheTableRows : ∃ ofs len : Nat, ofs ≤ 255 ∧ len ≤ 255 ∧ len % 2 = 1 :=
  ⟨255, 255, by omega, by omega, rfl⟩
theorem witness_ReservedWordsRefused :
    ∃ s : State, s.host = [.command 0x00000#18] ∧ decode 0x00000#18 = .error .reservedEncoding :=
  ⟨State.reset.setHost [.command 0x00000#18], rfl, by decide⟩
theorem witness_StepRunsTheDecodedCommand :
    (∃ s : State, s.host = [.command 0x00003#18] ∧ decode 0x00003#18 = .ok .report) ∧
    0x0101A < 2 ^ 18 ∧ decode (BitVec.ofNat 18 0x0101A) = .ok (.swap 6 4) :=
  ⟨⟨State.reset.setHost [.command 0x00003#18], rfl, by decide⟩, by decide, by decide⟩
theorem witness_IdleStepChangesNothing : State.reset.host = [] := rfl
theorem witness_HostWriteSetsOneCell :
    (∃ s : State, s.host = [.write 16 0xAB] ∧ 16 < Config.params.pbufCap) ∧
    (∃ s : State, s.host = [.write Config.params.pbufCap 0xAB]) := by
  have hcap := seventeen_le_cap
  exact ⟨⟨State.reset.setHost [.write 16 0xAB], rfl, by omega⟩, ⟨State.reset.setHost [_], rfl⟩⟩
theorem witness_HostReadChangesNothing :
    (∃ s : State, s.host = [.read 7] ∧ 7 < Config.params.pbufCap ∧ s.pbuf.read 7 = some 0x12) ∧
    (∃ s : State, s.host = [.read Config.params.pbufCap]) := by
  have hcap := seventeen_le_cap
  exact ⟨⟨crcState.setHost [.read 7], rfl, by omega, by decide⟩, ⟨State.reset.setHost [_], rfl⟩⟩
theorem witness_PresentedInputsStandOnThePorts :
    (∃ s : State, s.host = [.present Inputs.reset] ∧ Inputs.reset.Fits Config.params) ∧
    (∃ (s : State) (inp : Inputs), s.host = [.present inp] ∧ ¬ inp.Fits Config.params) := by
  refine ⟨⟨State.reset.setHost [.present Inputs.reset], rfl, reset_inputs_fit⟩,
    ⟨State.reset.setHost [_], { Inputs.reset with s6 := 2 ^ Config.params.spaceW }, rfl, fun h => ?_⟩⟩
  exact absurd h.2.2.2 (Nat.lt_irrefl _)
theorem witness_CrcAppendsTheChecksum :
    ∃ bytes : List Byte, crcState.pbuf.read 1 = some 2 ∧ (2 : Byte).toNat + 8 ≤ Config.params.pbufCap ∧
      bytes.length = 5 + (2 : Byte).toNat ∧
      ∀ k, k < 5 + (2 : Byte).toNat → crcState.pbuf.read (1 + k) = bytes[k]? := by
  have hcap := seventeen_le_cap
  exact ⟨[0x02, 0x00, 0x33, 0x44, 0x6D, 0x34, 0x12], by decide, by simp; omega, by decide, by decide⟩
/-- One state for each clause: nothing written; the frame one byte beyond the least capacity, and exactly at it
with the last cell of the region `undef`. -/
theorem witness_CrcRefusedWhenPreconditionFails :
    (stateOf []).pbuf.read 1 = none ∧
    ((stateOf [0xFE, 0x0A]).pbuf.read 1 = some 0x0A ∧ 17 < (0x0A : Byte).toNat + 8) ∧
    ((stateOf [0xFE, 0x09, 0, 0, 0, 0, 0, 0, 0, 0, 0, 0, 0, 0]).pbuf.read 1 = some 0x09 ∧
      (0x09 : Byte).toNat + 8 ≤ 17 ∧
      ∃ k, k < 5 + (0x09 : Byte).toNat ∧
        (stateOf [0xFE, 0x09, 0, 0, 0, 0, 0, 0, 0, 0, 0, 0, 0, 0]).pbuf.read (1 + k) = none) := by
  refine ⟨by decide, by decide, by decide, by decide, 13, by decide, by decide⟩
theorem witness_CrcChangesTwoCellsOnly : ∃ s t : State, exec (.crc 0xB9) s = .next t :=
  ⟨crcState, crcState_completes⟩
theorem witness_ChecksumLowByteFirst :
    Config.params.Legal ∧
    (∃ t : State, crcState.pbuf.read 1 = some 2 ∧
      crcState.pbuf.readN 1 (5 + (2 : Byte).toNat) = some [0x02, 0x00, 0x33, 0x44, 0x6D, 0x34, 0x12] ∧
      crcWith Config.params 0xB9 crcState = .next t) ∧
    (∃ s t : State, reportWith Config.params s = .next t) := by
  refine ⟨Config.params_legal, ?_, ?_⟩
  · obtain ⟨t, h⟩ := crcState_completes
    exact ⟨t, by decide, by decide, h⟩
  · obtain ⟨t, h, -⟩ := report_completes (s := State.reset) reset_inputs_fit zero_lt_nodes
    exact ⟨State.reset, t, h⟩
theorem witness_CrcIdempotent : ∃ s t : State, s.pbuf.wf ∧ exec (.crc 0xB9) s = .next t := by
  obtain ⟨t, h⟩ := crcState_completes
  exact ⟨crcState, t, by decide, h⟩
/-- Two states that agree on the region and differ in offset 0 and in the sequence counter. -/
theorem witness_CrcDependsOnTheRegionAlone :
    ∃ (s s' t : State), s ≠ s' ∧ s.pbuf.read 1 = some 2 ∧
      (∀ k, k < 5 + (2 : Byte).toNat → s'.pbuf.read (1 + k) = s.pbuf.read (1 + k)) ∧
      exec (.crc 0xB9) s = .next t := by
  obtain ⟨t, h⟩ := crcState_completes
  exact ⟨crcState, (stateOf [0x00, 0x02, 0x00, 0x33, 0x44, 0x6D, 0x34, 0x12]).setSeq 7, t,
    fun g => absurd (congrArg State.seq g) (by decide), by decide, by decide, h⟩
theorem witness_ChecksumValidAfterCrc : ∃ s t : State, exec (.crc 0xB9) s = .next t :=
  ⟨crcState, crcState_completes⟩
/-- A valid checksum (95 V-C1) and a host write that changes a payload byte (95 V-C7). -/
theorem witness_ChangedCellMakesChecksumStale :
    ∃ t : State, staleState.pbuf.ChecksumValid 0xB9 ∧ staleState.pbuf.read 1 = some 2 ∧
      2 ≤ 6 ∧ 6 ≤ 7 + (2 : Byte).toNat ∧ staleState.pbuf.read 6 = some 0x34 ∧ (0x35 : Byte) ≠ 0x34 ∧
      staleState.host = [.write 6 0x35] ∧ step staleState = .next t := by
  have hcap := seventeen_le_cap
  refine ⟨(staleState.setHost []).setPbuf (staleState.pbuf.write 6 0x35),
    ⟨2, [0x02, 0x00, 0x33, 0x44, 0x6D, 0x34, 0x12], by decide, by decide, by decide, by decide⟩,
    by decide, by decide, by decide, by decide, by decide, rfl, ?_⟩
  rw [step_of_write (s := staleState) (a := 6) (b := 0x35) (rest := []) rfl, hostWrite, writeCellWith,
    if_pos (by omega)]
  rfl
theorem witness_SwapExchangesEachPair :
    4 % 2 = 0 ∧ 4 + 4 ≤ Config.params.pbufCap ∧ crcState.pbuf.Defined 4 4 := by
  have hcap := seventeen_le_cap
  refine ⟨rfl, by omega, fun k hk => ?_⟩
  interval_cases k <;> decide
theorem witness_SwapOfLengthZeroChangesNothing : ∃ ofs, ofs ≤ Config.params.pbufCap := ⟨_, le_refl _⟩
/-- One case for each clause, the second one byte pair beyond the capacity, the third exactly at it. -/
theorem witness_SwapRefusedWhenPreconditionFails :
    255 % 2 = 1 ∧ (2 % 2 = 0 ∧ Config.params.pbufCap < (Config.params.pbufCap - 1) + 2) ∧
    (2 % 2 = 0 ∧ (Config.params.pbufCap - 2) + 2 ≤ Config.params.pbufCap ∧
      ∃ k, k < 2 ∧ State.reset.pbuf.read (Config.params.pbufCap - 2 + k) = none) := by
  have hcap := seventeen_le_cap
  exact ⟨rfl, ⟨rfl, by omega⟩, rfl, by omega, 0, by omega, rfl⟩
theorem witness_SwapChangesItsRegionOnly : ∃ s t : State, exec (.swap 6 2) s = .next t :=
  ⟨crcState, crcState_swaps⟩
theorem witness_SwapIsAnInvolution :
    (∃ s t : State, s.pbuf.wf ∧ exec (.swap 6 2) s = .next t) ∧
    (∃ s : State, s.pbuf.read 6 = some 0x66 ∧ s.pbuf.read 7 = some 0x77 ∧ s.pbuf.read 8 = some 0x88) := by
  obtain ⟨t, h⟩ := crcState_swaps
  exact ⟨⟨crcState, t, by decide, h⟩,
    ⟨stateOf [0x00, 0x11, 0x22, 0x33, 0x44, 0x55, 0x66, 0x77, 0x88], by decide, by decide, by decide⟩⟩
theorem witness_SwapTurnsA16BitField :
    6 + 2 ≤ Config.params.pbufCap ∧
    (crcState.pbuf.read 6 = some ((0x3412 : Word16).extractLsb' 8 8) ∧
      crcState.pbuf.read (6 + 1) = some ((0x3412 : Word16).extractLsb' 0 8)) ∧
    (crcState.pbuf.read 6 = some ((0x1234 : Word16).extractLsb' 0 8) ∧
      crcState.pbuf.read (6 + 1) = some ((0x1234 : Word16).extractLsb' 8 8)) := by
  have hcap := seventeen_le_cap
  exact ⟨by omega, by decide, by decide⟩
theorem witness_ReportBuildsTheWireFrame :
    State.reset.inputs.Fits Config.params ∧ State.reset.inputs.nodeId < Config.params.nNodes :=
  ⟨reset_inputs_fit, zero_lt_nodes⟩
theorem witness_ReportChangesSeventeenCellsOnly : ∃ s t : State, exec .report s = .next t := by
  obtain ⟨t, h, -⟩ := report_completes (s := State.reset) reset_inputs_fit zero_lt_nodes
  exact ⟨_, t, h⟩
/-- A base; a remote at the last identity inside the tables; the first identity outside them. -/
theorem witness_ReportRoleMux :
    ((nodeState 0).inputs.Fits Config.params ∧ (nodeState 0).inputs.nodeId = 0) ∧
    (∃ k, (nodeState k).inputs.Fits Config.params ∧ (nodeState k).inputs.nodeId ≠ 0 ∧
      (nodeState k).inputs.nodeId < Config.params.nNodes) ∧
    Config.params.nNodes ≤ (nodeState Config.params.nNodes).inputs.nodeId := by
  have h2 := Config.params_legal.nNodes_ge
  refine ⟨⟨nodeState_fits 0, rfl⟩, ⟨Config.params.nNodes - 1, nodeState_fits _, ?_, ?_⟩, le_refl _⟩
  · show Config.params.nNodes - 1 ≠ 0
    omega
  · show Config.params.nNodes - 1 < Config.params.nNodes
    omega
/-- No space at step 6, and exactly 17 bytes of it. -/
theorem witness_ReportGate :
    (State.reset.inputs.Fits Config.params ∧ State.reset.inputs.nodeId < Config.params.nNodes ∧
      State.reset.inputs.s6 < 17) ∧
    ((nodeState 0).inputs.Fits Config.params ∧ (nodeState 0).inputs.nodeId < Config.params.nNodes ∧
      17 ≤ (nodeState 0).inputs.s6) :=
  ⟨⟨reset_inputs_fit, zero_lt_nodes, by decide⟩, nodeState_fits 0, zero_lt_nodes, le_refl _⟩
theorem witness_ReportSpaceSamplesIndependent :
    (nodeState 0).inputs.Fits Config.params ∧ (nodeState 0).inputs.nodeId < Config.params.nNodes :=
  ⟨nodeState_fits 0, zero_lt_nodes⟩
theorem witness_ReportLeavesAValidChecksum : ∃ s t : State, exec .report s = .next t :=
  witness_ReportChangesSeventeenCellsOnly
theorem witness_NativeOrderUnobservable : Config.params.Legal ∧ crcState.pbuf.wf :=
  ⟨Config.params_legal, by decide⟩
theorem witness_ReportStraightAfterReset :
    (nodeState 1).inputs.Fits Config.params ∧ (nodeState 1).inputs.nodeId < Config.params.nNodes := by
  have h2 := Config.params_legal.nNodes_ge
  exact ⟨nodeState_fits 1, show 1 < Config.params.nNodes by omega⟩
theorem witness_TwoReportsDifferInSequenceAndChecksum :
    ∃ s t u : State, exec .report s = .next t ∧ exec .report t = .next u := by
  obtain ⟨t, h, hi⟩ := report_completes (s := nodeState 0) (nodeState_fits 0) zero_lt_nodes
  obtain ⟨u, h', -⟩ := report_completes (s := t) (hi ▸ nodeState_fits 0) (hi ▸ zero_lt_nodes)
  exact ⟨_, t, u, h, h'⟩
/-- Two reports, one of them gated, and an identity outside the tables for the second clause. -/
theorem witness_ConsecutiveReportsCountModulo256 :
    (∃ s : State, (∀ inp ∈ [(nodeState 0).inputs, State.reset.inputs],
        inp.Fits Config.params ∧ inp.nodeId < Config.params.nNodes) ∧
      s.host = [(nodeState 0).inputs, State.reset.inputs].flatMap
        (fun inp => [HostMove.present inp, HostMove.command 0x00003#18])) ∧
    Config.params.nNodes ≤ (nodeState Config.params.nNodes).inputs.nodeId := by
  refine ⟨⟨State.reset.setHost _, ?_, rfl⟩, le_refl _⟩
  intro inp h
  rcases List.mem_cons.1 h with rfl | h
  · exact ⟨nodeState_fits 0, zero_lt_nodes⟩
  · rw [List.mem_singleton.1 h]
    exact ⟨reset_inputs_fit, zero_lt_nodes⟩
/-- The report's own buffer with the counters' bytes exchanged. -/
theorem witness_HandBuiltFrameEqualsReport :
    ∃ s t u : State, exec .report s = .next t ∧
      (∀ a, a < 15 → a ≠ 6 → a ≠ 7 → a ≠ 8 → a ≠ 9 → u.pbuf.read a = t.pbuf.read a) ∧
      u.pbuf.read 6 = t.pbuf.read 7 ∧ u.pbuf.read 7 = t.pbuf.read 6 ∧
      u.pbuf.read 8 = t.pbuf.read 9 ∧ u.pbuf.read 9 = t.pbuf.read 8 := by
  obtain ⟨t, h, -⟩ := report_completes (s := State.reset) reset_inputs_fit zero_lt_nodes
  have hdef : ∀ k, k < 17 → ∃ b, t.pbuf.read k = some b := by
    intro k hk
    rcases exec_next_cases h with ⟨_, _, hi, -⟩ | ⟨_, _, _, hi, -⟩ | ⟨sel, m, -, -, -, hread, rfl⟩
    · cases hi
    · cases hi
    · refine ⟨(wireFrame Config.params State.reset.inputs sel State.reset.seq)[k], ?_⟩
      have hm : m.read k = (wireFrame Config.params State.reset.inputs sel State.reset.seq)[k]? := by
        rw [hread, if_pos hk]
      rw [List.getElem?_eq_getElem (by simpa using hk)] at hm
      split <;> exact hm
  obtain ⟨b6, h6⟩ := hdef 6 (by omega)
  obtain ⟨b7, h7⟩ := hdef 7 (by omega)
  obtain ⟨b8, h8⟩ := hdef 8 (by omega)
  obtain ⟨b9, h9⟩ := hdef 9 (by omega)
  refine ⟨State.reset, t, t.setPbuf (t.pbuf.writeN 6 [b7, b6, b9, b8]), h, ?_, ?_⟩
  · intro a _ g6 g7 g8 g9
    simp [g6, g7, g8, g9]
  · simp [h6, h7, h8, h9]
/-- A state with a defined cell, a valid step and nothing written yet. -/
theorem witness_StepKeepsTheInvariant : ∃ s t : State, s.Inv ∧ step s = .next t ∧ s.pbuf.read 3 = some 7 := by
  have hcap := seventeen_le_cap
  refine ⟨(State.reset.setPbuf [(3, 7)]).setHost [.write 4 8], State.reset.setPbuf [(3, 7), (4, 8)], ⟨by decide, ?_, reset_inputs_fit, ?_⟩, ?_, by decide⟩
  · intro a ha
    by_cases h : a = 3
    · omega
    · simp [Memory.read, h] at ha
  · intro f hf
    cases hf
  · rw [step_of_write (a := 4) (b := 8) (rest := []) rfl, hostWrite, writeCellWith, if_pos (by omega)]
    rfl
theorem witness_OnlyReportTouchesSeq :
    (∃ s t : State, exec .report s = .next t) ∧ (∃ s t : State, exec (.swap 6 2) s = .next t) ∧
    (∃ s t : State, (∀ w rest, s.host ≠ .command w :: rest) ∧ step s = .next t) :=
  ⟨witness_ReportChangesSeventeenCellsOnly, ⟨crcState, crcState_swaps⟩,
    ⟨State.reset, State.reset, ⟨fun _ _ h => (by cases h), step_of_idle (s := State.reset) rfl⟩⟩⟩
/-- A step that is a report with 17 bytes of space, and one that is none. -/
theorem witness_OnlyReportEmitsAWrite :
    (∃ s t : State, step s = .next t ∧ (∃ rest, s.host = .command 0x00003#18 :: rest) ∧ 17 ≤ s.inputs.s6) ∧
    (∃ s t : State, step s = .next t ∧ ¬ ((∃ rest, s.host = .command 0x00003#18 :: rest) ∧ 17 ≤ s.inputs.s6)) := by
  obtain ⟨t, h, -⟩ := report_completes (s := nodeState 0) (nodeState_fits 0) zero_lt_nodes
  refine ⟨⟨(nodeState 0).setHost [.command 0x00003#18], t, ?_, ⟨[], rfl⟩, le_refl _⟩,
    ⟨State.reset, State.reset, step_of_idle (s := State.reset) rfl, fun g => by obtain ⟨⟨_, g⟩, -⟩ := g; cases g⟩⟩
  rw [step_of_command (i := .report) rfl (by decide)]
  exact h
theorem witness_RefusalsAreTheClosedList :
    exec (.crc 0xB9) State.reset = .refused .unwrittenCell ∧ exec (.swap 6 3) State.reset = .refused .oddLength ∧
    State.reset.inputs.Fits Config.params ∧
    step (State.reset.setHost [.command 0x00000#18]) = .refused .reservedEncoding :=
  ⟨rfl, rfl, reset_inputs_fit, step_of_reserved (w := 0x00000#18) (rest := []) (e := .reservedEncoding) rfl (by decide)⟩
theorem witness_OperationsLeavePortsAndCommandsAlone : ∃ s t : State, exec (.crc 0xB9) s = .next t :=
  ⟨crcState, crcState_completes⟩
theorem witness_StepsKeepCellsDefinedAndInBounds :
    ∃ s t : State, step s = .next t ∧ s.pbuf.read 7 ≠ none :=
  ⟨crcState, crcState, step_of_idle rfl, by decide⟩

end Sys2Proof.Tests
end

section
/-! SUPPORT. What one operation and one move of the host do to each part of the state, and from these the
statements about the state of the block (10_state). -/

namespace Sys2Proof.Machine

/-! ### The command port -/

/-- The all-zero operand fields leave one word only for `REPORT` (30_encoding R56). -/
theorem decode_eq_report_iff (w : CommandWord) : decode w = .ok .report ↔ w = 0x00003#18 := by
  refine ⟨fun h => ?_, fun h => by subst h; decide⟩
  rw [decode] at h
  split_ifs at h with _ _ _ hop hzero
  · cases h
  · cases h
  · exact word_ext_fields hop hzero.1 hzero.2

/-- A number of at most 18 bits stands for the word with those bits. -/
theorem tableWord_of_lt {w : Nat} (h : w < 2 ^ 18) : tableWord 18 w = BitVec.ofNat 18 w := by
  rw [tableWord, Nat.mod_eq_of_lt h]

/-- From a number of at most 18 bits the table's decoder reads what `decode` reads from its word. -/
theorem decodeTableWord_of_decode {w : Nat} {i : Instr} (h : w < 2 ^ 18)
    (hd : decode (BitVec.ofNat 18 w) = .ok i) : decodeTableWord 18 w = some i := by
  rw [decodeTableWord, tableWord_of_lt h, if_pos (Nat.mod_lt _ (by decide)), hd]

/-- A word placed by `withFetchWord` runs its operation in the state it was placed in. -/
theorem step_withFetchWord {s : State} {nbits w : Nat} {i : Instr} (hd : decode (tableWord nbits w) = .ok i) :
    step (s.withFetchWord nbits w) = exec i s :=
  step_of_command (s := s.withFetchWord nbits w) rfl hd

/-- Settles O6: the step of a command word, for a word the host presents and for one placed by `withFetchWord`. -/
theorem stepRunsTheDecodedCommand : Obligations.StepRunsTheDecodedCommand := by
  refine ⟨fun s w rest i hhost hd => step_of_command hhost hd, fun s w i hw hd => ?_⟩
  refine ⟨decodeTableWord_of_decode hw hd, step_withFetchWord ?_⟩
  rw [tableWord_of_lt hw, hd]

/-! ### What an operation does to each field -/

/-- `CRC` and `SWAP` give a new buffer and nothing else, and any state with the same buffer gets the same one
(40_checksum R72, 41_byteswap R80). -/
theorem exec_next_of_ne_report {i : Instr} {s t : State} (hi : i ≠ .report) (h : exec i s = .next t) :
    ∃ m, t = s.setPbuf m ∧ ∀ s' : State, s'.pbuf = s.pbuf → exec i s' = .next (s'.setPbuf m) := by
  rcases exec_next_cases h with ⟨extra, m, rfl, hm, rfl⟩ | ⟨ofs, len, m, rfl, hm, rfl⟩ | ⟨_, _, rfl, -⟩
  · exact ⟨m, rfl, fun s' hs => (execCrc_eq_next_iff extra s' _).2 ⟨m, by rw [hs, hm], rfl⟩⟩
  · exact ⟨m, rfl, fun s' hs => (execSwap_eq_next_iff ofs len s' _).2 ⟨m, by rw [hs, hm], rfl⟩⟩
  · exact absurd rfl hi

/-- What a completed `REPORT` leaves in the fields it changes: the frame with the old sequence number in offsets
0 to 16, the counter advanced, and the frame written if and only if the gate is open (42_report R90). -/
theorem exec_report_next {s t : State} (h : exec .report s = .next t) :
    ∃ sel, (∀ c, t.pbuf.read c =
        if c < 17 then (wireFrame Config.params s.inputs sel s.seq)[c]? else s.pbuf.read c) ∧
      t.seq = s.seq + 1 ∧
      t.writes =
        if 17 ≤ s.inputs.s6 then s.writes ++ [wireFrame Config.params s.inputs sel s.seq] else s.writes := by
  rcases exec_next_cases h with ⟨_, _, hi, -⟩ | ⟨_, _, _, hi, -⟩ | ⟨sel, m, -, -, -, hread, rfl⟩
  · cases hi
  · cases hi
  · refine ⟨sel, ?_⟩
    split
    · exact ⟨hread, rfl, rfl⟩
    · exact ⟨hread, rfl, rfl⟩

/-- No operation that answers writes to the input ports, the pending moves or the record of the host's reads. -/
theorem exec_next_frame {i : Instr} {s t : State} (h : exec i s = .next t) :
    t.inputs = s.inputs ∧ t.host = s.host ∧ t.reads = s.reads := by
  rcases exec_next_cases h with ⟨_, m, -, -, rfl⟩ | ⟨_, _, m, -, -, rfl⟩ | ⟨sel, m, -, -, -, -, rfl⟩
  · exact ⟨rfl, rfl, rfl⟩
  · exact ⟨rfl, rfl, rfl⟩
  · split
    · exact ⟨rfl, rfl, rfl⟩
    · exact ⟨rfl, rfl, rfl⟩

/-- Settles O49: the frame of an operation outside SEQ, PBUF and the output. -/
theorem operationsLeavePortsAndCommandsAlone : Obligations.OperationsLeavePortsAndCommandsAlone :=
  fun _ _ _ h => exec_next_frame h

/-! ### The sequence counter -/

theorem hostWrite_of_lt {a : Nat} (b : Byte) (s : State) (h : a < Config.params.pbufCap) :
    hostWrite a b s = .next (s.setPbuf (s.pbuf.write a b)) := if_pos h

theorem hostRead_of_lt {a : Nat} (s : State) (h : a < Config.params.pbufCap) :
    hostRead a s = .next (s.pushRead (readCell s a)) := if_pos h

theorem hostPresent_of_fits {inp : Inputs} (s : State) (h : inp.Fits Config.params) :
    hostPresent inp s = .next (s.setInputs inp) := if_pos h

/-- A step that runs no command leaves SEQ and answers the same for any value of it (10_state R11). -/
theorem step_setSeq_of_no_command {s t : State} (v : Byte) (hc : ∀ w rest, s.host ≠ .command w :: rest)
    (h : step s = .next t) : t.seq = s.seq ∧ step (s.setSeq v) = .next (t.setSeq v) := by
  rcases step_next_cases h with ⟨hh, rfl⟩ | ⟨w, rest, _, hh, -⟩ | ⟨a, b, rest, hh, ha, rfl⟩ |
      ⟨a, rest, hh, ha, rfl⟩ | ⟨inp, rest, hh, hfit, rfl⟩
  · exact ⟨rfl, step_of_idle hh⟩
  · exact absurd hh (hc w rest)
  · exact ⟨rfl, (step_of_write (s := s.setSeq v) hh).trans (hostWrite_of_lt b _ ha)⟩
  · exact ⟨rfl, (step_of_read (s := s.setSeq v) hh).trans (hostRead_of_lt _ ha)⟩
  · exact ⟨rfl, (step_of_present (s := s.setSeq v) hh).trans (hostPresent_of_fits _ hfit)⟩

/-- Settles O44: the reset value, `REPORT`, the operations that leave SEQ, and the host's own moves. -/
theorem onlyReportTouchesSeq : Obligations.OnlyReportTouchesSeq := by
  refine ⟨rfl, fun s t h => ?_, fun i s t v hi h => ?_, fun s t v hc h => step_setSeq_of_no_command v hc h⟩
  · obtain ⟨sel, hread, hseq, -⟩ := exec_report_next h
    refine ⟨by rw [hread, if_pos (by decide)]; rfl, ?_⟩
    rw [hseq, BitVec.toNat_add]
    rfl
  · obtain ⟨m, rfl, hany⟩ := exec_next_of_ne_report hi h
    exact ⟨rfl, hany (s.setSeq v) rfl⟩

/-! ### The output -/

/-- A step that runs no `REPORT` word leaves the output as it was (10_state R21). -/
theorem step_writes_of_no_report {s t : State} (hr : ∀ rest, s.host ≠ .command 0x00003#18 :: rest)
    (h : step s = .next t) : t.writes = s.writes := by
  rcases step_next_cases h with ⟨-, rfl⟩ | ⟨w, rest, i, hh, hd, he⟩ | ⟨_, _, _, -, -, rfl⟩ |
      ⟨_, _, -, -, rfl⟩ | ⟨_, _, -, -, rfl⟩
  · rfl
  · have hi : i ≠ .report := by
      rintro rfl
      exact hr rest (by rw [hh, (decode_eq_report_iff w).1 hd])
    obtain ⟨m, rfl, -⟩ := exec_next_of_ne_report hi he
    rfl
  · rfl
  · rfl
  · rfl

/-- Settles O45: the step of a `REPORT` word with the gate open and with it closed, and every other step. -/
theorem onlyReportEmitsAWrite : Obligations.OnlyReportEmitsAWrite := by
  intro s t h
  by_cases hrep : ∃ rest, s.host = .command 0x00003#18 :: rest
  · obtain ⟨rest, hh⟩ := hrep
    rw [step_of_command hh ((decode_eq_report_iff _).2 rfl)] at h
    obtain ⟨sel, hread, -, hwrites⟩ := exec_report_next h
    refine ⟨fun ⟨_, hgate⟩ => ?_, fun hno => ?_⟩
    · exact ⟨_, hwrites.trans (if_pos hgate), rfl, fun k hk => by rw [hread, if_pos hk]⟩
    · exact hwrites.trans (if_neg fun hgate => hno ⟨⟨rest, hh⟩, hgate⟩)
  · exact ⟨fun hopen => absurd hopen.1 hrep,
      fun _ => step_writes_of_no_report (fun rest hh => hrep ⟨rest, hh⟩) h⟩

end Sys2Proof.Machine
end

section
/-! SUPPORT. What the packet buffer keeps under every operation and every move of the host, where the checksum
bytes stand in it, and from these the statements about the buffer (20_memory). -/

namespace Sys2Proof.Machine

/-! ### The order of the checksum bytes -/

/-- A completed `CRC` leaves the low byte of the fold at the first cell above its region and the high byte at the
next (40_checksum R72, 20_memory R35). -/
theorem crcWith_checksum_bytes {p : Params} {extra l : Byte} {bytes : List Byte} {s t : State}
    (hl : s.pbuf.read 1 = some l) (hbytes : s.pbuf.readN 1 (5 + l.toNat) = some bytes)
    (h : crcWith p extra s = .next t) :
    t.pbuf.read (6 + l.toNat) = some (lo8 (crcFold (bytes ++ [extra]))) ∧
    t.pbuf.read (7 + l.toNat) = some (hi8 (crcFold (bytes ++ [extra]))) := by
  obtain ⟨m, hm, rfl⟩ := (commit_eq_next_iff s t _).1 h
  obtain ⟨l', bytes', hl', -, hbytes', rfl⟩ := (checksumStep_eq_ok_iff p extra s.pbuf m).1 hm
  obtain rfl : l = l' := Option.some.inj (hl.symm.trans hl')
  obtain rfl : bytes = bytes' := Option.some.inj (hbytes.symm.trans hbytes')
  have hhi : 7 + l.toNat = 6 + l.toNat + 1 := by omega
  simp [hhi]

/-- For every legal parameter set a completed `REPORT` leaves the wire frame, its counters and checksum in the
wire's order, in offsets 0 to 16 (30_encoding R61). -/
theorem reportWith_next_frame {p : Params} (hp : p.Legal) {s t : State} (h : reportWith p s = .next t) :
    ∃ sel, ∀ c, c < 17 → t.pbuf.read c = (wireFrame p s.inputs sel s.seq)[c]? := by
  rcases reportWith_cases hp s with ⟨e, -, he⟩ | ⟨sel, m, -, -, -, hread, hn⟩
  · rw [he] at h; cases h
  · have hframe : ∀ c, c < 17 → m.read c = (wireFrame p s.inputs sel s.seq)[c]? :=
      fun c hc => by rw [hread, if_pos hc]
    rw [hn] at h; cases h
    refine ⟨sel, ?_⟩
    split
    · exact hframe
    · exact hframe

/-- Settles O19: the checksum bytes `CRC` writes, and those of the frame `REPORT` leaves. -/
theorem checksumLowByteFirst : Obligations.ChecksumLowByteFirst := by
  refine fun p s t hp => ⟨fun extra l bytes hl hbytes h => crcWith_checksum_bytes hl hbytes h, fun h => ?_⟩
  obtain ⟨sel, hframe⟩ := reportWith_next_frame hp h
  obtain ⟨-, hregion, hlo, hhi⟩ := frame_region hframe
  exact ⟨_, hregion, hlo, hhi⟩

/-! ### The capacity and the defined cells -/

/-- From `m` to `m'` no cell at or above `cap` changes and no defined cell becomes `undef` (20_memory R31, R38). -/
structure Memory.KeptWithin (cap : Nat) (m m' : Memory) : Prop where
  above : ∀ a, cap ≤ a → m'.read a = m.read a
  defined : ∀ a, m.read a ≠ none → m'.read a ≠ none

theorem Memory.KeptWithin.refl (cap : Nat) (m : Memory) : m.KeptWithin cap m := ⟨fun _ _ => rfl, fun _ h => h⟩

theorem Memory.KeptWithin.trans {cap : Nat} {m m' m'' : Memory} (h : m.KeptWithin cap m')
    (h' : m'.KeptWithin cap m'') : m.KeptWithin cap m'' :=
  ⟨fun a ha => (h'.above a ha).trans (h.above a ha), fun a ha => h'.defined a (h.defined a ha)⟩

/-- One write below the capacity. -/
theorem Memory.write_keptWithin {cap a : Nat} (m : Memory) (b : Byte) (ha : a < cap) :
    m.KeptWithin cap (m.write a b) where
  above c hc := by rw [Memory.read_write, if_neg (by omega)]
  defined c hc := by
    rw [Memory.read_write]
    split
    · exact Option.some_ne_none b
    · exact hc

/-- A run of writes below the capacity. -/
theorem Memory.writeN_keptWithin {cap a : Nat} {bs : List Byte} (m : Memory) (ha : a + bs.length ≤ cap) :
    m.KeptWithin cap (m.writeN a bs) := by
  induction bs generalizing m a with
  | nil => exact .refl cap m
  | cons b bs ih =>
    rw [List.length_cons] at ha
    exact (m.write_keptWithin b (by omega)).trans (ih (m.write a b) (by omega))

/-- One exchange below the capacity: both cells were defined, and each is written. -/
theorem Memory.exchange_keptWithin {cap a : Nat} {m m' : Memory} (ha : a + 2 ≤ cap) (h : m.exchange a = some m') :
    m.KeptWithin cap m' := by
  obtain ⟨x, y, -, -, rfl⟩ := (Memory.exchange_eq_some_iff m m' a).1 h
  exact (m.write_keptWithin y (by omega)).trans (Memory.write_keptWithin _ x (by omega))

/-- The adapter's loop on a region below the capacity. -/
theorem Memory.swapPairs_keptWithin {cap a n : Nat} {m m' : Memory} (ha : a + 2 * n ≤ cap)
    (h : m.swapPairs a n = some m') : m.KeptWithin cap m' := by
  induction n generalizing m a with
  | zero => cases h; exact .refl cap _
  | succ n ih =>
    simp only [Memory.swapPairs] at h
    split at h
    · rename_i m1 h1
      exact (Memory.exchange_keptWithin (by omega) h1).trans (ih (by omega) h)
    · cases h

/-- The adapter answers only for a region that fits (41_byteswap R81). -/
theorem adapterStep_keptWithin {p : Params} {ofs len : Nat} {m m' : Memory}
    (h : adapterStep p ofs len m = .ok m') : m.KeptWithin p.pbufCap m' := by
  obtain ⟨heven, hcap, hs⟩ := (adapterStep_eq_ok_iff p ofs len m m').1 h
  exact Memory.swapPairs_keptWithin (by omega) hs

/-- The checksum step answers only for a frame whose checksum bytes fit (40_checksum R76). -/
theorem checksumStep_keptWithin {p : Params} {extra : Byte} {m m' : Memory}
    (h : checksumStep p extra m = .ok m') : m.KeptWithin p.pbufCap m' := by
  obtain ⟨l, bytes, -, hcap, -, rfl⟩ := (checksumStep_eq_ok_iff p extra m m').1 h
  exact m.writeN_keptWithin (show 6 + l.toNat + 2 ≤ p.pbufCap by omega)

/-- A frame laid over the lowest cells, every other cell as before. -/
theorem Memory.keptWithin_of_frame {cap : Nat} {m m' : Memory} {f : List Byte} (hcap : f.length ≤ cap)
    (h : ∀ c, m'.read c = if c < f.length then f[c]? else m.read c) : m.KeptWithin cap m' where
  above c hc := by rw [h, if_neg (by omega)]
  defined c hc := by
    rw [h]
    split
    · rename_i hlt
      simp [hlt]
    · exact hc

/-- No operation that answers writes outside the buffer or makes a defined cell `undef`. -/
theorem exec_keptWithin {i : Instr} {s t : State} (h : exec i s = .next t) :
    s.pbuf.KeptWithin Config.params.pbufCap t.pbuf := by
  cases i with
  | crc extra =>
    obtain ⟨m, hm, rfl⟩ := (execCrc_eq_next_iff extra s t).1 h
    exact checksumStep_keptWithin hm
  | swap ofs len =>
    obtain ⟨m, hm, rfl⟩ := (execSwap_eq_next_iff ofs len s t).1 h
    exact adapterStep_keptWithin hm
  | report =>
    obtain ⟨sel, hread, -, -⟩ := exec_report_next h
    exact Memory.keptWithin_of_frame (f := wireFrame Config.params s.inputs sel s.seq)
      Config.params_legal.pbufCap_ge hread

/-- No step that answers does: beside the operations only the host's write touches the buffer, and it lies below
the capacity. -/
theorem step_keptWithin {s t : State} (h : step s = .next t) :
    s.pbuf.KeptWithin Config.params.pbufCap t.pbuf := by
  rcases step_next_cases h with ⟨-, rfl⟩ | ⟨_, rest, i, -, -, he⟩ | ⟨a, b, _, -, ha, rfl⟩ |
      ⟨_, _, -, -, rfl⟩ | ⟨_, _, -, -, rfl⟩
  · exact .refl _ _
  · exact exec_keptWithin (s := s.setHost rest) he
  · exact s.pbuf.write_keptWithin b ha
  · exact .refl _ _
  · exact .refl _ _

/-- Settles O50: every kind of step keeps the cells above the capacity and the defined cells. -/
theorem stepsKeepCellsDefinedAndInBounds : Obligations.StepsKeepCellsDefinedAndInBounds :=
  fun _ _ a h => ⟨(step_keptWithin h).above a, (step_keptWithin h).defined a⟩

end Sys2Proof.Machine
end

section
/-! SUPPORT. What each command word decodes to, in terms of its three fields, the words of a row under its mask, and
what a report answers once its table entries are selected; from these the statements about encodings
(30_encoding). -/

namespace Sys2Proof.Machine

/-! ### The decoder by the fields of the word -/

/-- The words that decode, by their fields: one format for each operation (30_encoding R52). -/
theorem decode_eq_ok_iff (w : CommandWord) (i : Instr) :
    decode w = .ok i ↔
      (opField w = 0b01#2 ∧ bField w = 0#8 ∧ i = .crc (aField w)) ∨
      (opField w = 0b10#2 ∧ i = .swap (aField w).toNat (bField w).toNat) ∨
      (opField w = 0b11#2 ∧ aField w = 0#8 ∧ bField w = 0#8 ∧ i = .report) := by
  rw [decode]
  split_ifs with hcrc hb hswap hrep hzero
  · simp [hcrc, hb, eq_comm]
  · simp [hcrc, hb]
  · simp [hswap, eq_comm]
  · simp [hrep, hzero, eq_comm]
  · simpa [hrep] using fun ha hb _ => hzero ⟨ha, hb⟩
  · simp [hcrc, hswap, hrep]

theorem decode_eq_crc_iff (w : CommandWord) (extra : Byte) :
    decode w = .ok (.crc extra) ↔ opField w = 0b01#2 ∧ bField w = 0#8 ∧ aField w = extra := by
  simp [decode_eq_ok_iff, eq_comm]

theorem decode_eq_swap_iff (w : CommandWord) (ofs len : Nat) :
    decode w = .ok (.swap ofs len) ↔ opField w = 0b10#2 ∧ (aField w).toNat = ofs ∧ (bField w).toNat = len := by
  simp [decode_eq_ok_iff, eq_comm]

/-- The words that do not decode, by their fields: `op` is 00, or a must-be-zero field is not zero
(30_encoding R57). -/
theorem decode_eq_reserved_iff (w : CommandWord) :
    decode w = .error .reservedEncoding ↔
      opField w = 0b00#2 ∨ (opField w = 0b01#2 ∧ bField w ≠ 0#8) ∨
      (opField w = 0b11#2 ∧ (aField w ≠ 0#8 ∨ bField w ≠ 0#8)) := by
  rw [decode]
  split_ifs with hcrc hb hswap hrep hzero
  · simp [hcrc, hb]
  · simp [hcrc, hb]
  · simp [hswap]
  · simp [hrep, hzero]
  · simpa [hrep, imp_iff_not_or] using hzero
  · have hop : opField w = 0b00#2 := by
      generalize opField w = op at hcrc hswap hrep ⊢
      revert op; decide
    simp [hop]

/-! ### Decoding and encoding are inverse -/

/-- The word of an operation decodes to it: no operand loses a bit in its 8-bit field (30_encoding R53). -/
theorem decode_encode {i : Instr} (h : WellFormed i) : decode (encode i) = .ok i := by
  cases i with
  | crc extra => simp [decode_eq_crc_iff, encode]
  | swap ofs len =>
    obtain ⟨hofs, hlen⟩ := (wellFormed_swap_iff ofs len).1 h
    simp only [decode_eq_swap_iff, encode, opField_append, aField_append, bField_append, BitVec.toNat_ofNat]
    exact ⟨trivial, Nat.mod_eq_of_lt (Nat.lt_succ_of_le hofs), Nat.mod_eq_of_lt (Nat.lt_succ_of_le hlen)⟩
  | report => exact (decode_eq_report_iff _).2 rfl

/-- The fields of a decoded word are operands in range (30_encoding R53). -/
theorem wellFormed_of_decode {w : CommandWord} {i : Instr} (h : decode w = .ok i) : WellFormed i := by
  rcases (decode_eq_ok_iff w i).1 h with ⟨-, -, rfl⟩ | ⟨-, rfl⟩ | ⟨-, -, -, rfl⟩
  · rfl
  · exact (wellFormed_swap_iff _ _).2 ⟨Nat.le_of_lt_succ (aField w).isLt, Nat.le_of_lt_succ (bField w).isLt⟩
  · rfl

/-- A decoded word is the encoding of its operation: every bit of it lies in a field that the operation fixes. -/
theorem encode_of_decode {w : CommandWord} {i : Instr} (h : decode w = .ok i) : encode i = w := by
  rcases (decode_eq_ok_iff w i).1 h with ⟨hop, hb, rfl⟩ | ⟨hop, rfl⟩ | ⟨-, -, -, rfl⟩
  · exact word_ext_fields (by simp [encode, hop]) (by simp [encode]) (by simp [encode, hb])
  · exact word_ext_fields (by simp [encode, hop]) (by simp [encode]) (by simp [encode])
  · exact ((decode_eq_report_iff w).1 h).symm

/-- Settles O2: every operand survives its field. -/
theorem decodeOfEncode : Obligations.DecodeOfEncode := fun _ => decode_encode

/-- Settles O3: the decoded fields are in range and make up the word. -/
theorem encodeOfDecode : Obligations.EncodeOfDecode :=
  fun _ _ h => ⟨wellFormed_of_decode h, encode_of_decode h⟩

/-- Settles O1: the formats of the eight words that decode, and the reserved fields of the four that do not. -/
theorem wordsOfTheSpecDecode : Obligations.WordsOfTheSpecDecode := by
  unfold Obligations.WordsOfTheSpecDecode
  decide

/-- Settles O5: the decoder by its fields, and the step that meets its error. -/
theorem reservedWordsRefused : Obligations.ReservedWordsRefused :=
  ⟨decode_eq_reserved_iff, fun _ _ _ => step_of_reserved⟩

/-! ### The rows of the command table -/

@[simp] theorem opField_and (w v : CommandWord) : opField (w &&& v) = opField w &&& opField v :=
  BitVec.extractLsb'_and

@[simp] theorem aField_and (w v : CommandWord) : aField (w &&& v) = aField w &&& aField v :=
  BitVec.extractLsb'_and

@[simp] theorem bField_and (w v : CommandWord) : bField (w &&& v) = bField w &&& bField v :=
  BitVec.extractLsb'_and

/-- A word has a row's match under its mask exactly if each of its fields has. -/
theorem and_append_eq_append_iff (w : CommandWord) (maskB maskA b a : BitVec 8) (maskOp op : BitVec 2) :
    w &&& (maskB ++ maskA ++ maskOp) = b ++ a ++ op ↔
      opField w &&& maskOp = op ∧ aField w &&& maskA = a ∧ bField w &&& maskB = b := by
  refine ⟨fun h => ?_, fun ⟨hop, ha, hb⟩ => word_ext_fields (by simp [hop]) (by simp [ha]) (by simp [hb])⟩
  exact ⟨by simpa using congrArg opField h, by simpa using congrArg aField h, by simpa using congrArg bField h⟩

/-- The row of `CRC`: `op` and `B` are fixed, `A` is free (30_encoding R54). -/
theorem crc_row_iff (w : CommandWord) : w &&& 0x3FC03#18 = 0x00001#18 ↔ ∃ extra, decode w = .ok (.crc extra) := by
  have hrow := and_append_eq_append_iff w (.allOnes 8) 0#8 0#8 0#8 (.allOnes 2) 0b01#2
  simp only [BitVec.and_allOnes, BitVec.and_zero, true_and] at hrow
  simpa [decode_eq_crc_iff] using hrow

/-- The row of `SWAP`: `op` alone is fixed (30_encoding R55). -/
theorem swap_row_iff (w : CommandWord) :
    w &&& 0x00003#18 = 0x00002#18 ↔ ∃ ofs len, decode w = .ok (.swap ofs len) := by
  have hrow := and_append_eq_append_iff w 0#8 0#8 0#8 0#8 (.allOnes 2) 0b10#2
  simp only [BitVec.and_allOnes, BitVec.and_zero, and_true] at hrow
  simpa [decode_eq_swap_iff] using hrow

/-- The row of `REPORT`: the mask covers the word (30_encoding R56). -/
theorem report_row_iff (w : CommandWord) : w &&& 0x3FFFF#18 = 0x00003#18 ↔ decode w = .ok .report := by
  rw [decode_eq_report_iff, show 0x3FFFF#18 = BitVec.allOnes 18 from rfl, BitVec.and_allOnes]

theorem toNat_encode_crc (extra : Byte) : (encode (.crc extra)).toNat = extra.toNat * 2 ^ 2 + 1 := by
  simp [encode, toNat_append_fields]

theorem toNat_encode_swap {ofs len : Nat} (hofs : ofs ≤ 255) (hlen : len ≤ 255) :
    (encode (.swap ofs len)).toNat = len * 2 ^ 10 + ofs * 2 ^ 2 + 2 := by
  simp only [encode, toNat_append_fields, BitVec.toNat_ofNat]
  omega

/-- The length's parity is the first thing `SWAP` tests (60_exceptions R114). -/
theorem exec_swap_of_odd {ofs len : Nat} (s : State) (hodd : len % 2 = 1) :
    exec (.swap ofs len) s = .refused .oddLength :=
  (commit_eq_refused_iff s _ _).2 ((adapterStep_eq_error_iff _ _ _ _ _).2 (Or.inl ⟨hodd, rfl⟩))

/-- Settles O4: the three encodings as numbers, their rows, and the examples. -/
theorem encodingsAreTheTableRows : Obligations.EncodingsAreTheTableRows := by
  refine ⟨toNat_encode_crc, fun ofs len hofs hlen => ?_, fun _ _ s => exec_swap_of_odd s, rfl,
    crc_row_iff, swap_row_iff, report_row_iff, rfl, rfl, rfl, rfl, rfl, rfl⟩
  exact ⟨toNat_encode_swap hofs hlen, decode_encode ((wellFormed_swap_iff ofs len).2 ⟨hofs, hlen⟩)⟩

/-! ### The wire frame of a report -/

/-- With legal parameters and its table values selected, `REPORT` always answers (42_report R90, R102). -/
theorem reportWith_of_selected {p : Params} (hp : p.Legal) {s : State} {sel : Selected}
    (hsel : roleSelect p s.inputs = .ok sel) :
    ∃ m, (∀ c, m.read c = if c < 17 then (wireFrame p s.inputs sel s.seq)[c]? else s.pbuf.read c) ∧
      reportWith p s = .next
        (if 17 ≤ s.inputs.s6 then
          ((s.setSeq (s.seq + 1)).setPbuf m).pushWrite (wireFrame p s.inputs sel s.seq)
        else (s.setSeq (s.seq + 1)).setPbuf m) := by
  rcases reportWith_cases hp s with ⟨e, he, -⟩ | ⟨sel', m, hsel', -, -, hread, hn⟩
  · rw [hsel] at he; cases he
  · rw [hsel] at hsel'; cases hsel'
    exact ⟨m, hread, hn⟩

/-- Settles O30: the role mux answers for fitting inputs, and then the frame is built, with the gate open and with
it closed. -/
theorem reportBuildsTheWireFrame : Obligations.ReportBuildsTheWireFrame := by
  intro s hfit hnode
  obtain ⟨sel, hsel⟩ := roleSelect_of_fits Config.params_legal hfit hnode
  obtain ⟨m, hread, hn⟩ := reportWith_of_selected Config.params_legal hsel
  obtain ⟨-, l, r, hl, hr, rfl⟩ := (roleSelect_eq_ok_iff _ _ _).1 hsel
  have hframe := fun a (ha : a < 17) => (hread a).trans (if_pos ha)
  have habove := fun a (ha : 17 ≤ a) => (hread a).trans (if_neg (Nat.not_lt.2 ha))
  by_cases hgate : 17 ≤ s.inputs.s6
  · rw [if_pos hgate] at hn
    exact ⟨_, l, r, hl, hr, hn, rfl, hframe, habove, (if_neg (Nat.not_lt.2 hgate)).symm, rfl, rfl, rfl⟩
  · rw [if_neg hgate] at hn
    exact ⟨_, l, r, hl, hr, hn, rfl, hframe, habove, (if_pos (Nat.lt_of_not_le hgate)).symm, rfl, rfl, rfl⟩

end Sys2Proof.Machine
end

section
/-! SUPPORT. The checksum update on naturals, when `CRC` answers and what it then leaves in the state, when it is
refused, and from these the statements about the Checksum Engine (40_checksum). -/

namespace Sys2Proof.Machine

/-! ### The update on naturals -/

theorem toNat_lo8 (v : Word16) : (lo8 v).toNat = v.toNat % 2 ^ 8 := by
  simp [lo8]

theorem toNat_hi8 (v : Word16) : (hi8 v).toNat = v.toNat / 2 ^ 8 := by
  rw [hi8, BitVec.extractLsb'_toNat, Nat.shiftRight_eq_div_pow]
  exact Nat.mod_eq_of_lt (by omega)

/-- A byte widened to 16 bits is the same number, so the shifts of `w` are shifts of `t1`. -/
theorem toNat_widen (b : Byte) : (b.setWidth 16).toNat = b.toNat :=
  BitVec.toNat_setWidth_of_le (by decide)

/-- The four terms of the update as numbers: each truncation of the rule is a modulus (40_checksum R70, R74). -/
theorem toNat_crcStep (acc : Word16) (b : Byte) :
    let t0 : Nat := b.toNat ^^^ (acc.toNat % 2 ^ 8)
    let t1 : Nat := t0 ^^^ (t0 * 2 ^ 4 % 2 ^ 8)
    (crcStep acc b).toNat =
      (acc.toNat / 2 ^ 8) ^^^ (t1 * 2 ^ 8 % 2 ^ 16) ^^^ (t1 * 2 ^ 3 % 2 ^ 16) ^^^ (t1 / 2 ^ 4) := by
  simp only [crcStep, BitVec.toNat_xor, BitVec.toNat_shiftLeft, BitVec.toNat_ushiftRight, toNat_widen, toNat_lo8,
    toNat_hi8, Nat.shiftLeft_eq, Nat.shiftRight_eq_div_pow]

/-- A byte equal to the accumulator's low byte cancels it, and only the shifted accumulator is left
(40_checksum R70, corner cases). -/
theorem crcStep_lo8 (acc : Word16) : crcStep acc (lo8 acc) = acc >>> 8 := by
  apply BitVec.eq_of_toNat_eq
  simp [toNat_crcStep, toNat_lo8, Nat.shiftRight_eq_div_pow]

/-- Settles O11: the four terms as numbers the corner case of a cancelled byte, and the examples. -/
theorem crcStepOnNaturals : Obligations.CrcStepOnNaturals :=
  ⟨toNat_crcStep, rfl, crcStep_lo8, rfl, rfl, rfl⟩

/-! ### When `CRC` answers, and with what -/

theorem onlyPbufChanged_setPbuf (s : State) (m : Memory) : OnlyPbufChanged s (s.setPbuf m) :=
  ⟨rfl, rfl, rfl, rfl, rfl⟩

/-- With the length cell and the region defined and the frame inside the buffer, `CRC` answers (40_checksum R76). -/
theorem crcWith_completes {p : Params} {l : Byte} {bytes : List Byte} {s : State} (extra : Byte)
    (hl : s.pbuf.read 1 = some l) (hcap : l.toNat + 8 ≤ p.pbufCap)
    (hbytes : s.pbuf.readN 1 (5 + l.toNat) = some bytes) : ∃ t, crcWith p extra s = .next t :=
  ⟨_, (commit_eq_next_iff s _ _).2 ⟨_, (checksumStep_eq_ok_iff p extra _ _).2 ⟨l, bytes, hl, hcap, hbytes, rfl⟩, rfl⟩⟩

/-- Only then does it answer, and the two cells after the region are all that changes (40_checksum R72). -/
theorem crcWith_next_frame {p : Params} {extra : Byte} {s t : State} (h : crcWith p extra s = .next t) :
    OnlyPbufChanged s t ∧ ∃ l bytes, s.pbuf.read 1 = some l ∧ l.toNat + 8 ≤ p.pbufCap ∧
      s.pbuf.readN 1 (5 + l.toNat) = some bytes ∧
      ∀ a, a ≠ 6 + l.toNat → a ≠ 7 + l.toNat → t.pbuf.read a = s.pbuf.read a := by
  obtain ⟨m, hm, rfl⟩ := (commit_eq_next_iff s t _).1 h
  obtain ⟨l, bytes, hl, hcap, hbytes, rfl⟩ := (checksumStep_eq_ok_iff p extra s.pbuf m).1 hm
  refine ⟨onlyPbufChanged_setPbuf s _, l, bytes, hl, hcap, hbytes, fun a hlo hhi => ?_⟩
  rw [State.setPbuf_pbuf, Memory.read_write16LE, if_neg hlo, if_neg (by omega)]

/-- Settles O16: `CRC` completes on the region's bytes, writes their checksum, and keeps everything else. -/
theorem crcAppendsTheChecksum : Obligations.CrcAppendsTheChecksum := by
  intro s extra l bytes hl hcap hlen hregion
  have hbytes : s.pbuf.readN 1 (5 + l.toNat) = some bytes :=
    (Memory.readN_eq_some_iff _ _ _ _).2 ⟨hlen, hregion⟩
  obtain ⟨t, ht⟩ := crcWith_completes extra hl hcap hbytes
  obtain ⟨hlo, hhi⟩ := crcWith_checksum_bytes hl hbytes ht
  obtain ⟨honly, l', -, hl', -, -, hframe⟩ := crcWith_next_frame ht
  obtain rfl : l = l' := Option.some.inj (hl.symm.trans hl')
  exact ⟨t, ht, hlo, hhi, hframe, honly⟩

/-- Settles O18: the frame of `CRC`, whose region the length cell fixes. -/
theorem crcChangesTwoCellsOnly : Obligations.CrcChangesTwoCellsOnly := by
  intro s t extra h
  obtain ⟨honly, l, -, hl, -, -, hframe⟩ := crcWith_next_frame h
  exact ⟨honly, l, hl, hframe⟩

/-- Settles O21: the second state has the same length cell and the same region, so `CRC` completes there too, and
both states get the checksum of the same bytes. -/
theorem crcDependsOnTheRegionAlone : Obligations.CrcDependsOnTheRegionAlone := by
  intro s s' t extra l hl hagree h
  obtain ⟨-, l', bytes, hl', hcap, hbytes, -⟩ := crcWith_next_frame h
  obtain rfl : l = l' := Option.some.inj (hl.symm.trans hl')
  have hl1 : s'.pbuf.read 1 = some l := (hagree 0 (by omega)).trans hl
  have hbytes1 : s'.pbuf.readN 1 (5 + l.toNat) = some bytes := (Memory.readN_congr hagree).trans hbytes
  obtain ⟨t', ht'⟩ := crcWith_completes extra hl1 hcap hbytes1
  obtain ⟨hlo, hhi⟩ := crcWith_checksum_bytes hl hbytes h
  obtain ⟨hlo', hhi'⟩ := crcWith_checksum_bytes hl1 hbytes1 ht'
  exact ⟨t', ht', hlo'.trans hlo.symm, hhi'.trans hhi.symm⟩

/-! ### When `CRC` is refused -/

/-- `CRC` is refused in exactly three cases, tested in this order (40_checksum R76, 60_exceptions R114). -/
theorem crcWith_eq_refused_iff (p : Params) (extra : Byte) (s : State) (e : Refusal) :
    crcWith p extra s = .refused e ↔
      (s.pbuf.read 1 = none ∧ e = .unwrittenCell) ∨
      (∃ l, s.pbuf.read 1 = some l ∧ p.pbufCap < l.toNat + 8 ∧ e = .regionOutOfBounds) ∨
      (∃ l, s.pbuf.read 1 = some l ∧ l.toNat + 8 ≤ p.pbufCap ∧
        (∃ k, k < 5 + l.toNat ∧ s.pbuf.read (1 + k) = none) ∧ e = .unwrittenCell) := by
  simp only [crcWith, commit_eq_refused_iff, checksumStep_eq_error_iff, Memory.readN_eq_none_iff]

/-- Settles O17: the three refusals, for this machine's parameters and for any others. -/
theorem crcRefusedWhenPreconditionFails : Obligations.CrcRefusedWhenPreconditionFails := by
  refine fun s extra => ⟨rfl, fun p => ⟨fun hl => ?_, fun l hl hcap => ?_, fun l hl hcap hundef => ?_⟩⟩
  · exact (crcWith_eq_refused_iff p extra s _).2 (Or.inl ⟨hl, rfl⟩)
  · exact (crcWith_eq_refused_iff p extra s _).2 (Or.inr (Or.inl ⟨l, hl, hcap, rfl⟩))
  · exact (crcWith_eq_refused_iff p extra s _).2 (Or.inr (Or.inr ⟨l, hl, hcap, hundef, rfl⟩))

end Sys2Proof.Machine
end

section
/-! SUPPORT. The cell that `SWAP` exchanges each cell with, when `SWAP` answers and what it then leaves in the state,
when it is refused, and from these the statements about the Byte-Order Adapter (41_byteswap). -/

namespace Sys2Proof.Machine

/-! ### The cell that a cell is exchanged with -/

/-- The other cell of the pair in which offset `c` lies, pairs counted from `ofs`, and `c` itself outside the region
(41_byteswap R80, "Equivalently"). -/
def swapPartner (ofs len c : Nat) : Nat :=
  if ofs ≤ c ∧ c < ofs + len then (if (c - ofs) % 2 = 0 then c + 1 else c - 1) else c

theorem swapPartner_outside {ofs len c : Nat} (h : c < ofs ∨ ofs + len ≤ c) : swapPartner ofs len c = c :=
  if_neg (by omega)

theorem swapPartner_first {ofs len k : Nat} (hk : k % 2 = 0) (hlt : k + 1 < len) :
    swapPartner ofs len (ofs + k) = ofs + k + 1 := by
  rw [swapPartner, if_pos (by omega), if_pos (by omega)]

theorem swapPartner_second {ofs len k : Nat} (hk : k % 2 = 0) (hlt : k + 1 < len) :
    swapPartner ofs len (ofs + k + 1) = ofs + k := by
  rw [swapPartner, if_pos (by omega), if_neg (by omega)]
  rfl

/-- A region of even length is made of whole pairs, so an offset lies outside it, or is the first or the second of a
pair. -/
theorem swap_offset_cases {len : Nat} (heven : len % 2 = 0) (ofs c : Nat) :
    (c < ofs ∨ ofs + len ≤ c) ∨
    ∃ k, k % 2 = 0 ∧ k + 1 < len ∧ (c = ofs + k ∨ c = ofs + k + 1) := by
  by_cases hin : c < ofs ∨ ofs + len ≤ c
  · exact Or.inl hin
  · exact Or.inr ⟨(c - ofs) / 2 * 2, by omega, by omega, by omega⟩

/-- The partner of the partner is the cell itself (41_byteswap R82). -/
theorem swapPartner_swapPartner {len : Nat} (heven : len % 2 = 0) (ofs c : Nat) :
    swapPartner ofs len (swapPartner ofs len c) = c := by
  rcases swap_offset_cases heven ofs c with hout | ⟨k, hk, hlt, rfl | rfl⟩
  · rw [swapPartner_outside hout, swapPartner_outside hout]
  · rw [swapPartner_first hk hlt, swapPartner_second hk hlt]
  · rw [swapPartner_second hk hlt, swapPartner_first hk hlt]

/-! ### When `SWAP` answers, and with what -/

/-- `SWAP` is refused in exactly three cases, tested in this order (41_byteswap R81, 60_exceptions R114). -/
theorem exec_swap_eq_refused_iff (ofs len : Nat) (s : State) (e : Refusal) :
    exec (.swap ofs len) s = .refused e ↔
      (len % 2 = 1 ∧ e = .oddLength) ∨
      (len % 2 = 0 ∧ Config.params.pbufCap < ofs + len ∧ e = .regionOutOfBounds) ∨
      (len % 2 = 0 ∧ ofs + len ≤ Config.params.pbufCap ∧ (∃ k, k < len ∧ s.pbuf.read (ofs + k) = none) ∧
        e = .unwrittenCell) :=
  (commit_eq_refused_iff s _ e).trans (adapterStep_eq_error_iff _ ofs len s.pbuf e)

/-- `SWAP` answers exactly when its length is even and its region is inside the buffer and defined
(41_byteswap R80, R81). -/
theorem exec_swap_completes_iff (ofs len : Nat) (s : State) :
    (∃ t, exec (.swap ofs len) s = .next t) ↔
      len % 2 = 0 ∧ ofs + len ≤ Config.params.pbufCap ∧ s.pbuf.Defined ofs len := by
  constructor
  · rintro ⟨t, h⟩
    obtain ⟨m, hm, -⟩ := (execSwap_eq_next_iff ofs len s t).1 h
    obtain ⟨heven, hcap, hpairs⟩ := (adapterStep_eq_ok_iff _ ofs len s.pbuf m).1 hm
    refine ⟨heven, hcap, fun k hk hnone => ?_⟩
    have := (Memory.swapPairs_eq_none_iff s.pbuf ofs (len / 2)).2 ⟨k, by omega, hnone⟩
    simp [hpairs] at this
  · rintro ⟨heven, hcap, hdef⟩
    have hpairs : s.pbuf.swapPairs ofs (len / 2) ≠ none := fun hnone => by
      obtain ⟨k, hk, hread⟩ := (Memory.swapPairs_eq_none_iff _ _ _).1 hnone
      exact hdef k (by omega) hread
    obtain ⟨m, hm⟩ := Option.ne_none_iff_exists'.1 hpairs
    exact ⟨s.setPbuf m, (execSwap_eq_next_iff ofs len s _).2
      ⟨m, (adapterStep_eq_ok_iff _ ofs len _ m).2 ⟨heven, hcap, hm⟩, rfl⟩⟩

/-- A completed `SWAP` leaves in each cell what its partner held, and everything but the buffer as it was
(41_byteswap R80). -/
theorem exec_swap_next {ofs len : Nat} {s t : State} (h : exec (.swap ofs len) s = .next t) :
    OnlyPbufChanged s t ∧ (s.pbuf.wf → t.pbuf.wf) ∧
      ∀ c, t.pbuf.read c = s.pbuf.read (swapPartner ofs len c) := by
  obtain ⟨m, hm, rfl⟩ := (execSwap_eq_next_iff ofs len s t).1 h
  refine ⟨onlyPbufChanged_setPbuf s m, fun hwf => adapterStep_wf hwf hm, fun c => ?_⟩
  rw [State.setPbuf_pbuf, read_adapterStep hm, swapPartner]
  split_ifs <;> rfl

/-- Settles O24: the partners of the two cells of a pair are each other, and a cell outside the region is its own. -/
theorem swapExchangesEachPair : Obligations.SwapExchangesEachPair := by
  intro s ofs len heven hcap hdef
  obtain ⟨t, ht⟩ := (exec_swap_completes_iff ofs len s).2 ⟨heven, hcap, hdef⟩
  obtain ⟨honly, -, hread⟩ := exec_swap_next ht
  refine ⟨t, ht, fun k hk hlt => ⟨?_, ?_⟩, fun a hout => ?_, honly⟩
  · rw [hread, swapPartner_first hk hlt]
  · rw [hread, swapPartner_second hk hlt]
  · rw [hread, swapPartner_outside hout]

/-- Settles O27: a cell outside the region is its own partner. -/
theorem swapChangesItsRegionOnly : Obligations.SwapChangesItsRegionOnly := by
  intro s t ofs len h
  obtain ⟨honly, -, hread⟩ := exec_swap_next h
  exact ⟨honly, fun a hout => by rw [hread, swapPartner_outside hout]⟩

/-- Settles O25: the adapter's loop has no round for a region of length zero. -/
theorem swapOfLengthZeroChangesNothing : Obligations.SwapOfLengthZeroChangesNothing := fun s ofs hcap =>
  (execSwap_eq_next_iff ofs 0 s s).2 ⟨s.pbuf, (adapterStep_eq_ok_iff _ ofs 0 _ _).2 ⟨rfl, hcap, rfl⟩, rfl⟩

/-- Settles O26: the three refusals, of which each clause names one. -/
theorem swapRefusedWhenPreconditionFails : Obligations.SwapRefusedWhenPreconditionFails := by
  refine fun s ofs len => ⟨exec_swap_of_odd s, fun heven hcap => ?_, fun heven hcap hundef => ?_⟩
  · exact (exec_swap_eq_refused_iff ofs len s _).2 (Or.inr (Or.inl ⟨heven, hcap, rfl⟩))
  · exact (exec_swap_eq_refused_iff ofs len s _).2 (Or.inr (Or.inr ⟨heven, hcap, hundef, rfl⟩))

/-! ### The same `SWAP` twice, and overlapping regions -/

theorem OnlyPbufChanged.trans {s t u : State} (hst : OnlyPbufChanged s t) (htu : OnlyPbufChanged t u) :
    OnlyPbufChanged s u :=
  ⟨htu.seq.trans hst.seq, htu.inputs.trans hst.inputs, htu.writes.trans hst.writes, htu.reads.trans hst.reads,
    htu.host.trans hst.host⟩

/-- With the buffer the same too, nothing has changed. -/
theorem OnlyPbufChanged.eq_of_pbuf_eq {s t : State} (h : OnlyPbufChanged s t) (hpbuf : t.pbuf = s.pbuf) : t = s := by
  cases s; cases t
  obtain ⟨rfl, rfl, rfl, rfl, rfl⟩ := h
  cases hpbuf; rfl

/-- `SWAP a, 2` completes on two defined cells and exchanges them. -/
theorem exec_swap_two {s : State} {a : Nat} {x y : Byte} (hcap : a + 2 ≤ Config.params.pbufCap)
    (hx : s.pbuf.read a = some x) (hy : s.pbuf.read (a + 1) = some y) :
    ∃ t, exec (.swap a 2) s = .next t ∧ t.pbuf.read a = some y ∧ t.pbuf.read (a + 1) = some x ∧
      ∀ c, c < a ∨ a + 2 ≤ c → t.pbuf.read c = s.pbuf.read c := by
  have hdef : s.pbuf.Defined a 2 := fun k hk => by interval_cases k <;> simp [hx, hy]
  obtain ⟨t, ht, hpair, hframe, -⟩ := swapExchangesEachPair s a 2 rfl hcap hdef
  obtain ⟨hfirst, hsecond⟩ := hpair 0 rfl (by omega)
  exact ⟨t, ht, hfirst.trans hy, hsecond.trans hx, hframe⟩

/-- A completed `SWAP` completes again, and then every cell holds what it held at first (41_byteswap R82). -/
theorem exec_swap_twice {ofs len : Nat} {s t : State} (h : exec (.swap ofs len) s = .next t) :
    ∃ u, exec (.swap ofs len) t = .next u ∧ OnlyPbufChanged s u ∧ (∀ a, u.pbuf.read a = s.pbuf.read a) ∧
      (s.pbuf.wf → u.pbuf.wf) := by
  obtain ⟨heven, hcap, hdef⟩ := (exec_swap_completes_iff ofs len s).1 ⟨t, h⟩
  have hdef' : t.pbuf.Defined ofs len := fun k hk => (exec_keptWithin h).2 _ (hdef k hk)
  obtain ⟨u, hu⟩ := (exec_swap_completes_iff ofs len t).2 ⟨heven, hcap, hdef'⟩
  obtain ⟨honly, hwf, hread⟩ := exec_swap_next h
  obtain ⟨honly', hwf', hread'⟩ := exec_swap_next hu
  refine ⟨u, hu, honly.trans honly', fun a => ?_, fun hs => hwf' (hwf hs)⟩
  rw [hread', hread, swapPartner_swapPartner heven]

/-- Offsets 6 to 8 under two exchanges that share offset 7 (41_byteswap R82). -/
theorem exec_swap_overlapping {s : State} {x y z : Byte} (hx : s.pbuf.read 6 = some x)
    (hy : s.pbuf.read 7 = some y) (hz : s.pbuf.read 8 = some z) :
    ∃ t u, exec (.swap 6 2) s = .next t ∧ exec (.swap 7 2) t = .next u ∧
      u.pbuf.read 6 = some y ∧ u.pbuf.read 7 = some z ∧ u.pbuf.read 8 = some x := by
  have hcap := Config.params_legal.pbufCap_ge
  obtain ⟨t, ht, h6, h7, hframe⟩ := exec_swap_two (by omega) hx hy
  obtain ⟨u, hu, h7', h8', hframe'⟩ := exec_swap_two (a := 7) (by omega) h7 ((hframe 8 (by omega)).trans hz)
  exact ⟨t, u, ht, hu, (hframe' 6 (by omega)).trans h6, h7', h8'⟩

/-- Settles O28: the partner of the partner is the cell itself; `SWAP 0, 2` changes offset 0 of a buffer that holds the
bytes 1 and 2; and two overlapping exchanges rotate three cells. -/
theorem swapIsAnInvolution : Obligations.SwapIsAnInvolution := by
  refine ⟨fun s t ofs len h => ?_, ?_, fun s x y z hx hy hz => exec_swap_overlapping hx hy hz⟩
  · obtain ⟨u, hu, honly, hread, hwf⟩ := exec_swap_twice h
    exact ⟨u, hu, honly, hread, fun hs => honly.eq_of_pbuf_eq (Memory.ext_of_wf (hwf hs) hs hread)⟩
  · have hcap := Config.params_legal.pbufCap_ge
    obtain ⟨t, ht, h0, -⟩ :=
      exec_swap_two (s := State.reset.setPbuf [(0, 1#8), (1, 2#8)]) (a := 0) (by omega) rfl rfl
    exact ⟨_, t, ht, by rw [h0]; decide⟩

/-! ### A frame built by hand -/

/-- A report's checksum is a function of its body: from any buffer that agrees with a completed `REPORT`'s in offsets
0 to 14, `CRC` with the report's seed completes the same 17 bytes (40_checksum R77, 42_report R98). -/
theorem exec_crc_of_report_body {s t v : State} (h : exec .report s = .next t)
    (hbody : ∀ a, a < 15 → v.pbuf.read a = t.pbuf.read a) :
    ∃ w, exec (.crc Config.params.crcExtraRs) v = .next w ∧ OnlyPbufChanged v w ∧
      ∀ a, a < 17 → w.pbuf.read a = t.pbuf.read a := by
  obtain ⟨sel, hframe⟩ := reportWith_next_frame Config.params_legal h
  obtain ⟨hlen, hregion, hlo, hhi⟩ := frame_region hframe
  have hlen' : v.pbuf.read 1 = some 9 := (hbody 1 (by omega)).trans hlen
  have hregion' := (Memory.readN_congr fun k (hk : k < 14) => hbody (1 + k) (by omega)).trans hregion
  obtain ⟨w, hw⟩ := crcWith_completes Config.params.crcExtraRs hlen' Config.params_legal.pbufCap_ge hregion'
  obtain ⟨hlo', hhi'⟩ := crcWith_checksum_bytes hlen' hregion' hw
  obtain ⟨honly, l, -, hl, -, -, hkept⟩ := crcWith_next_frame hw
  obtain rfl : 9 = l := Option.some.inj (hlen'.symm.trans hl)
  refine ⟨w, hw, honly, fun a ha => ?_⟩
  obtain rfl | rfl | hlt : a = 15 ∨ a = 16 ∨ a < 15 := by omega
  · exact hlo'.trans hlo.symm
  · exact hhi'.trans hhi.symm
  · exact (hkept a (show a ≠ 15 by omega) (show a ≠ 16 by omega)).trans (hbody a hlt)

/-- Every cell of a completed report's frame is defined (42_report R102). -/
theorem report_frame_defined {s t : State} (h : exec .report s = .next t) {a : Nat} (ha : a < 17) :
    t.pbuf.read a ≠ none := by
  obtain ⟨sel, hframe⟩ := reportWith_next_frame Config.params_legal h
  simpa [hframe a ha] using ha

/-- Settles O40: `SWAP 6, 4` puts the counters' bytes into the wire's order, so the body is the report's, and `CRC`
completes it. -/
theorem handBuiltFrameEqualsReport : Obligations.HandBuiltFrameEqualsReport := by
  intro s t u h hrest h6 h7 h8 h9
  have hcap := Config.params_legal.pbufCap_ge
  have hdef : u.pbuf.Defined 6 4 := fun k hk => by
    interval_cases k
    · exact h6 ▸ report_frame_defined h (by omega)
    · exact h7 ▸ report_frame_defined h (by omega)
    · exact h8 ▸ report_frame_defined h (by omega)
    · exact h9 ▸ report_frame_defined h (by omega)
  obtain ⟨v, hv, hpair, hframe, honly⟩ := swapExchangesEachPair u 6 4 rfl (by omega) hdef
  obtain ⟨hv6, hv7⟩ := hpair 0 rfl (by omega)
  obtain ⟨hv8, hv9⟩ := hpair 2 rfl (by omega)
  have hbody : ∀ a, a < 15 → v.pbuf.read a = t.pbuf.read a := fun a ha => by
    by_cases hout : a < 6 ∨ 6 + 4 ≤ a
    · exact (hframe a hout).trans (hrest a ha (by omega) (by omega) (by omega) (by omega))
    · obtain rfl | rfl | rfl | rfl : a = 6 ∨ a = 7 ∨ a = 8 ∨ a = 9 := by omega
      · exact hv6.trans h7
      · exact hv7.trans h6
      · exact hv8.trans h9
      · exact hv9.trans h8
  obtain ⟨w, hw, honly', hsame⟩ := exec_crc_of_report_body h hbody
  have hchain := honly.trans honly'
  exact ⟨v, w, hv, hw, hsame, hchain.seq, hchain.writes⟩

end Sys2Proof.Machine
end

section
/-! SUPPORT. Where the frame of a report holds its table values, its space sample and its checksum, and how the
sample at step 6 acts on nothing but the write, and from these the statements about `REPORT` (42_report). -/

namespace Sys2Proof.Machine

/-! ### The frame of the operation -/

/-- Settles O31: what a completed report changes, and the fields that no operation writes. -/
theorem reportChangesSeventeenCellsOnly : Obligations.ReportChangesSeventeenCellsOnly := by
  intro s t h
  obtain ⟨sel, hread, hseq, hwrites⟩ := exec_report_next h
  obtain ⟨hinputs, hhost, hreads⟩ := exec_next_frame h
  have hnew : ∃ new, t.writes = s.writes ++ new ∧ new.length ≤ 1 := by
    by_cases hgate : 17 ≤ s.inputs.s6
    · exact ⟨_, hwrites.trans (if_pos hgate), le_refl 1⟩
    · exact ⟨[], by rw [hwrites, if_neg hgate, List.append_nil], Nat.zero_le 1⟩
  exact ⟨hseq, hinputs, hreads, hhost, hnew, fun a ha => (hread a).trans (if_neg (Nat.not_lt.2 ha))⟩

/-! ### The role mux -/

/-- The four table values stand at offsets 10, 11, 13 and 14 of the wire frame (20_memory R33, 42_report R95). -/
theorem wireFrame_selected (p : Params) (inp : Inputs) (sel : Selected) (seq : Byte) :
    (wireFrame p inp sel seq)[10]? = some sel.rssi ∧ (wireFrame p inp sel seq)[11]? = some sel.remrssi ∧
    (wireFrame p inp sel seq)[13]? = some sel.noise ∧ (wireFrame p inp sel seq)[14]? = some sel.remnoise :=
  ⟨rfl, rfl, rfl, rfl⟩

/-- With fitting inputs `REPORT` completes, and the cells of the table values hold those of the entries the role
selects (42_report R95). -/
theorem exec_report_selected {s : State} (hfit : s.inputs.Fits Config.params)
    (hnode : s.inputs.nodeId < Config.params.nNodes) :
    ∃ t l r, exec .report s = .next t ∧
      s.inputs.stat[if s.inputs.nodeId = 0 then 1 else s.inputs.nodeId]? = some l ∧
      s.inputs.rstat[if s.inputs.nodeId = 0 then 1 else 0]? = some r ∧
      t.pbuf.read 10 = some l.rssi ∧ t.pbuf.read 11 = some r.rssi ∧
      t.pbuf.read 13 = some l.noise ∧ t.pbuf.read 14 = some r.noise := by
  obtain ⟨t, l, r, hl, hr, ht, -, hframe, -⟩ := reportBuildsTheWireFrame s hfit hnode
  obtain ⟨h10, h11, h13, h14⟩ :=
    wireFrame_selected Config.params s.inputs ⟨l.rssi, r.rssi, l.noise, r.noise⟩ s.seq
  exact ⟨t, l, r, ht, hl, hr, (hframe 10 (by omega)).trans h10, (hframe 11 (by omega)).trans h11,
    (hframe 13 (by omega)).trans h13, (hframe 14 (by omega)).trans h14⟩

/-- An identity at or beyond N_NODES selects nothing (42_report R95). -/
theorem roleSelect_of_outside {p : Params} {inp : Inputs} (h : p.nNodes ≤ inp.nodeId) :
    roleSelect p inp = .error .indexOutOfTable := if_pos h

/-- `REPORT` is refused with the role mux's refusal (42_report R95). -/
theorem reportWith_of_unselected {p : Params} {s : State} {e : Refusal} (h : roleSelect p s.inputs = .error e) :
    reportWith p s = .refused e := by
  simp only [reportWith, h]

/-- Settles O32: the cells of the table values with the role's two cases, and the identity outside the tables. -/
theorem reportRoleMux : Obligations.ReportRoleMux := by
  refine ⟨fun s hfit hbase => ?_, fun s hfit hremote hnode => ?_, fun s hout => ?_⟩
  · have hnodes := Config.params_legal.nNodes_ge
    simpa only [if_pos hbase] using exec_report_selected hfit (by omega)
  · simpa only [if_neg hremote] using exec_report_selected hfit hnode
  · exact reportWith_of_unselected (roleSelect_of_outside hout)

/-! ### The gate -/

/-- Settles O33: the output of a completed report with the gate closed and with it open, where the bytes written are
the frame that the cells 0 to 16 hold. -/
theorem reportGate : Obligations.ReportGate := by
  intro s hfit hnode
  obtain ⟨t, l, r, -, -, ht, -, hframe, -, hwrites, -⟩ := reportBuildsTheWireFrame s hfit hnode
  refine ⟨t, ht, fun hclosed => hwrites.trans (if_pos hclosed), fun hopen => ?_⟩
  exact ⟨_, hwrites.trans (if_neg (Nat.not_lt.2 hopen)), length_wireFrame .., fun k hk => (hframe k hk).symm⟩

/-! ### The two samples of TX_SPACE -/

/-- A completed report leaves in the buffer what its steps 1 to 5 built (42_report R90). -/
theorem exec_report_built {s t : State} (h : exec .report s = .next t) :
    ∃ sel, roleSelect Config.params s.inputs = .ok sel ∧
      buildFrame Config.params s.inputs sel s.seq s.pbuf = .ok t.pbuf := by
  have h' : reportWith Config.params s = .next t := h
  rcases reportWith_cases Config.params_legal s with ⟨e, -, he⟩ | ⟨sel, m, hsel, hbuilt, -, -, hn⟩
  · rw [he] at h'; cases h'
  · rw [hn] at h'; cases h'
    refine ⟨sel, hsel, ?_⟩
    split
    · exact hbuilt
    · exact hbuilt

/-- No step before the gate reads S6: a report that completes completes under any other value of it, with the same
buffer and the same counter (42_report R94, R102). -/
theorem exec_report_setInputs_s6 {s t : State} (n : Nat) (h : exec .report s = .next t) :
    ∃ u, exec .report (s.setInputs { s.inputs with s6 := n }) = .next u ∧ u.pbuf = t.pbuf ∧ u.seq = t.seq := by
  obtain ⟨sel, hsel, hbuilt⟩ := exec_report_built h
  have hsel_s6 : roleSelect Config.params { s.inputs with s6 := n } = .ok sel := hsel
  have hbuilt_s6 : buildFrame Config.params { s.inputs with s6 := n } sel s.seq s.pbuf = .ok t.pbuf := hbuilt
  obtain ⟨m, -, hu⟩ :=
    reportWith_of_selected (s := s.setInputs { s.inputs with s6 := n }) Config.params_legal hsel_s6
  obtain ⟨sel', hsel', hbuilt'⟩ := exec_report_built hu
  obtain rfl : sel = sel' := Except.ok.inj (hsel_s6.symm.trans hsel')
  obtain ⟨-, -, hseq, -⟩ := exec_report_next h
  obtain ⟨-, -, hseq', -⟩ := exec_report_next hu
  exact ⟨_, hu, Except.ok.inj (hbuilt'.symm.trans hbuilt_s6), hseq'.trans hseq.symm⟩

/-- A completed report leaves the output as it was if and only if fewer than 17 bytes of space were sampled at
step 6 (42_report R99). -/
theorem exec_report_writes_eq_iff {s t : State} (h : exec .report s = .next t) :
    t.writes = s.writes ↔ s.inputs.s6 < 17 := by
  obtain ⟨sel, -, -, hwrites⟩ := exec_report_next h
  by_cases hgate : 17 ≤ s.inputs.s6
  · simp [hwrites, hgate]
  · simp [hwrites, hgate, Nat.lt_of_not_le hgate]

/-- Settles O34: offset 12 of the frame, and the same report under the other value of S6. -/
theorem reportSpaceSamplesIndependent : Obligations.ReportSpaceSamplesIndependent := by
  intro s n hfit hnode
  obtain ⟨t, l, r, -, -, ht, -, hframe, -⟩ := reportBuildsTheWireFrame s hfit hnode
  obtain ⟨u, hu, hpbuf, hseq⟩ := exec_report_setInputs_s6 n ht
  exact ⟨t, u, ht, hu, hframe 12 (by omega), hpbuf, hseq, exec_report_writes_eq_iff hu⟩

/-! ### The checksum in the buffer -/

/-- A buffer whose offsets 0 to 16 are a wire frame has a valid checksum for the report's seed (20_memory R44). -/
theorem checksumValid_of_frame {p : Params} {inp : Inputs} {sel : Selected} {seq : Byte} {m : Memory}
    (h : ∀ c, c < 17 → m.read c = (wireFrame p inp sel seq)[c]?) : m.ChecksumValid p.crcExtraRs := by
  obtain ⟨hlen, hregion, hlo, hhi⟩ := frame_region h
  exact ⟨9, _, hlen, hregion, hlo, hhi⟩

/-- Settles O35: whether or not the gate was open, the buffer holds the wire frame. -/
theorem reportLeavesAValidChecksum : Obligations.ReportLeavesAValidChecksum := by
  intro s t h
  obtain ⟨sel, hframe⟩ := reportWith_next_frame Config.params_legal h
  exact checksumValid_of_frame hframe

end Sys2Proof.Machine
end

section
/-! SUPPORT. When `REPORT` is refused, what a refused step was presented, that no operation faults, and from these the
statements about exceptions (60_exceptions). -/

namespace Sys2Proof.Machine

/-! ### No exception -/

/-- Settles O46: `CRC` and `SWAP` end in a new buffer or a refusal, `REPORT` in its frame or the refusal of the role
mux. -/
theorem noOperationFaults : Obligations.NoOperationFaults := by
  intro i s f h
  cases i with
  | crc extra => exact commit_ne_fault s _ f h
  | swap ofs len => exact commit_ne_fault s _ f h
  | report =>
    have hreport : reportWith Config.params s = .fault f := h
    rcases reportWith_cases Config.params_legal s with ⟨e, -, he⟩ | ⟨sel, m, -, -, -, -, hn⟩
    · rw [he] at hreport; cases hreport
    · rw [hn] at hreport; cases hreport

/-! ### The refusals of `REPORT` -/

/-- With the tables the ports carry, `REPORT` is refused exactly for an identity outside them, and by that reason
(42_report R95). -/
theorem exec_report_eq_refused_iff {s : State} (hfit : s.inputs.Fits Config.params) (e : Refusal) :
    exec .report s = .refused e ↔ e = .indexOutOfTable ∧ Config.params.nNodes ≤ s.inputs.nodeId := by
  by_cases hout : Config.params.nNodes ≤ s.inputs.nodeId
  · have hrefused : exec .report s = .refused .indexOutOfTable :=
      reportWith_of_unselected (roleSelect_of_outside hout)
    simp [hrefused, hout, eq_comm]
  · obtain ⟨t, _, _, -, -, hnext, -⟩ := reportBuildsTheWireFrame s hfit (Nat.lt_of_not_le hout)
    simp [hnext, hout]

/-! ### The refusals of a step -/

theorem hostWrite_ne_refused (a : Nat) (b : Byte) (s : State) (e : Refusal) : hostWrite a b s ≠ .refused e := by
  rw [hostWrite, writeCellWith]
  split <;> nofun

theorem hostRead_ne_refused (a : Nat) (s : State) (e : Refusal) : hostRead a s ≠ .refused e := by
  rw [hostRead, readCellWith]
  split <;> nofun

theorem hostPresent_ne_refused (inp : Inputs) (s : State) (e : Refusal) : hostPresent inp s ≠ .refused e := by
  rw [hostPresent, presentWith]
  split <;> nofun

/-- What a step that is refused was presented, said once: a reserved word, or the word of an operation that is
refused. -/
theorem step_refused_cases {s : State} {e : Refusal} (h : step s = .refused e) :
    ∃ w rest, s.host = .command w :: rest ∧
      ((e = .reservedEncoding ∧ decode w = .error .reservedEncoding) ∨
        ∃ i, decode w = .ok i ∧ exec i (s.setHost rest) = .refused e) := by
  cases hh : s.host with
  | nil => rw [step_of_idle hh] at h; cases h
  | cons move rest =>
    cases move with
    | command w =>
      refine ⟨w, rest, rfl, ?_⟩
      cases hd : decode w with
      | error d => rw [step_of_reserved hh hd] at h; cases h; cases d; exact Or.inl ⟨rfl, rfl⟩
      | ok i => rw [step_of_command hh hd] at h; exact Or.inr ⟨i, rfl, h⟩
    | write a b => rw [step_of_write hh] at h; exact absurd h (hostWrite_ne_refused a b _ e)
    | read a => rw [step_of_read hh] at h; exact absurd h (hostRead_ne_refused a _ e)
    | present inp => rw [step_of_present hh] at h; exact absurd h (hostPresent_ne_refused inp _ e)

/-! ### The closed list -/

/-- Settles O48: the refusals of each operation and of the step, with the `undef` cell of a region named by its
offset. -/
theorem refusalsAreTheClosedList : Obligations.RefusalsAreTheClosedList := by
  refine ⟨fun s extra e h => ?_, fun s ofs len e h => ?_, fun s e hfit => exec_report_eq_refused_iff hfit e,
    fun s e h => step_refused_cases h⟩
  · rcases (crcWith_eq_refused_iff Config.params extra s e).1 h with
      ⟨hlen, rfl⟩ | ⟨l, hl, hcap, rfl⟩ | ⟨l, hl, -, ⟨k, hk, hundef⟩, rfl⟩
    · exact Or.inr ⟨rfl, 1, le_refl 1, hlen, Or.inl rfl⟩
    · exact Or.inl ⟨rfl, l, hl, hcap⟩
    · exact Or.inr ⟨rfl, 1 + k, by omega, hundef, Or.inr ⟨l, hl, by omega⟩⟩
  · rcases (exec_swap_eq_refused_iff ofs len s e).1 h with
      ⟨hodd, rfl⟩ | ⟨-, hcap, rfl⟩ | ⟨-, -, ⟨k, hk, hundef⟩, rfl⟩
    · exact Or.inl ⟨rfl, hodd⟩
    · exact Or.inr (Or.inl ⟨rfl, hcap⟩)
    · exact Or.inr (Or.inr ⟨rfl, ofs + k, by omega, by omega, hundef⟩)

end Sys2Proof.Machine
end

section
/-! SUPPORT. The state at reset, and that the invariant of the machine holds there and is kept by every operation and
every move of the host (10_state). -/

namespace Sys2Proof.Machine

/-! ### Reset -/

/-- Settles O41: the three reset values as the definition gives them. -/
theorem resetLeaves : Obligations.ResetLeaves := ⟨rfl, Memory.read_nil, rfl⟩

/-- The tables have N_NODES entries, and zero fits any width (assumption log 4). -/
theorem Inputs.reset_fits : Inputs.reset.Fits Config.params :=
  ⟨List.length_replicate, List.length_replicate, Nat.two_pow_pos _, Nat.two_pow_pos _⟩

/-- Settles O42: the buffer and the output are empty, and zero fits every port. -/
theorem invariantHoldsAtReset : Obligations.InvariantHoldsAtReset where
  pbuf_wf := List.Pairwise.nil
  pbuf_bounded a ha := absurd (Memory.read_nil a) ha
  inputs_fit := Inputs.reset_fits
  writes_valid _ hf := absurd hf List.not_mem_nil

/-! ### The invariant -/

/-- Taking a move from the host's list concerns no clause of the invariant. -/
theorem State.Inv.setHost {s : State} (h : s.Inv) (moves : List HostMove) : (s.setHost moves).Inv :=
  ⟨h.pbuf_wf, h.pbuf_bounded, h.inputs_fit, h.writes_valid⟩

/-- A buffer that changes below the capacity only stays inside it. -/
theorem Memory.KeptWithin.bounded {cap : Nat} {m m' : Memory} (h : m.KeptWithin cap m')
    (hm : ∀ a, m.read a ≠ none → a < cap) : ∀ a, m'.read a ≠ none → a < cap := by
  intro a ha
  by_contra hge
  rw [h.above a (Nat.le_of_not_lt hge)] at ha
  exact hge (hm a ha)

/-- Every operation that answers keeps the canonical form of the buffer. -/
theorem exec_wf {i : Instr} {s t : State} (hs : s.pbuf.wf) (h : exec i s = .next t) : t.pbuf.wf := by
  rcases exec_next_cases h with ⟨_, m, -, hm, rfl⟩ | ⟨_, _, m, -, hm, rfl⟩ | ⟨sel, m, -, -, hwf, -, rfl⟩
  · exact checksumStep_wf hs hm
  · exact adapterStep_wf hs hm
  · split
    · exact hwf hs
    · exact hwf hs

/-- The one write an operation can append is a report's wire frame (30_encoding R61). -/
theorem exec_writes_valid {i : Instr} {s t : State} (hs : ∀ f ∈ s.writes, ValidFrame Config.params f)
    (h : exec i s = .next t) : ∀ f ∈ t.writes, ValidFrame Config.params f := by
  by_cases hi : i = .report
  · subst hi
    obtain ⟨sel, -, -, hwrites⟩ := exec_report_next h
    rw [hwrites]
    split
    · exact List.forall_mem_append.2 ⟨hs, List.forall_mem_singleton.2 (wireFrame_valid ..)⟩
    · exact hs
  · obtain ⟨m, rfl, -⟩ := exec_next_of_ne_report hi h
    exact hs

/-- Every operation that answers keeps the invariant. -/
theorem exec_inv {i : Instr} {s t : State} (hs : s.Inv) (h : exec i s = .next t) : t.Inv := by
  obtain ⟨hinputs, -, -⟩ := exec_next_frame h
  exact ⟨exec_wf hs.pbuf_wf h, (exec_keptWithin h).bounded hs.pbuf_bounded, hinputs ▸ hs.inputs_fit,
    exec_writes_valid hs.writes_valid h⟩

/-- Settles O43: an operation keeps the invariant, and each move of the host's own touches one of its clauses at
most: a write below the capacity the buffer, fitting inputs the ports. -/
theorem stepKeepsTheInvariant : Obligations.StepKeepsTheInvariant := by
  intro s t hs h
  rcases step_next_cases h with ⟨-, rfl⟩ | ⟨_, rest, i, -, -, he⟩ | ⟨a, b, _, -, ha, rfl⟩ |
      ⟨_, _, -, -, rfl⟩ | ⟨inp, _, -, hfit, rfl⟩
  · exact hs
  · exact exec_inv (hs.setHost rest) he
  · exact ⟨Memory.write_wf hs.pbuf_wf a b, (s.pbuf.write_keptWithin b ha).bounded hs.pbuf_bounded, hs.inputs_fit,
      hs.writes_valid⟩
  · exact ⟨hs.pbuf_wf, hs.pbuf_bounded, hs.inputs_fit, hs.writes_valid⟩
  · exact ⟨hs.pbuf_wf, hs.pbuf_bounded, hfit, hs.writes_valid⟩

end Sys2Proof.Machine
end

section
/-! SUPPORT. What a step does for each move of the host's own, in and out of range, and from these the statements about
the host's moves (70_reset_and_hazards). -/

namespace Sys2Proof.Machine

/-! ### Moves that do not exist -/

theorem hostWrite_eq_fault_iff (a : Nat) (b : Byte) (s : State) (f : Fault) :
    hostWrite a b s = .fault f ↔ f = .noSuchCell ∧ Config.params.pbufCap ≤ a := by
  rw [hostWrite, writeCellWith]
  split_ifs with h <;> simp [h, Nat.le_of_not_lt, eq_comm]

theorem hostRead_eq_fault_iff (a : Nat) (s : State) (f : Fault) :
    hostRead a s = .fault f ↔ f = .noSuchCell ∧ Config.params.pbufCap ≤ a := by
  rw [hostRead, readCellWith]
  split_ifs with h <;> simp [h, Nat.le_of_not_lt, eq_comm]

theorem hostPresent_eq_fault_iff (inp : Inputs) (s : State) (f : Fault) :
    hostPresent inp s = .fault f ↔ f = .noSuchInputs ∧ ¬ inp.Fits Config.params := by
  rw [hostPresent, presentWith]
  split_ifs with h <;> simp [h, eq_comm]

/-- Settles O47: the host's list by its first move; a command faults in no state. -/
theorem stepFaultsOnlyOnMovesThatDoNotExist : Obligations.StepFaultsOnlyOnMovesThatDoNotExist := by
  intro s f
  cases hh : s.host with
  | nil => simp [step_of_idle hh]
  | cons move rest =>
    cases move with
    | command w =>
      cases hd : decode w with
      | error e => simp [step_of_reserved hh hd]
      | ok i => simp [step_of_command hh hd, noOperationFaults i _ f]
    | write a b => simp [step_of_write hh, hostWrite_eq_fault_iff]
    | read a => simp [step_of_read hh, hostRead_eq_fault_iff]
    | present inp => simp [step_of_present hh, hostPresent_eq_fault_iff]

/-! ### Moves that exist -/

/-- Settles O7: the list of moves is empty. -/
theorem idleStepChangesNothing : Obligations.IdleStepChangesNothing := fun _ => step_of_idle

/-- Settles O8: the buffer after one write, and the offset outside it. -/
theorem hostWriteSetsOneCell : Obligations.HostWriteSetsOneCell := by
  intro s a b rest hh
  rw [step_of_write hh]
  refine ⟨fun ha => ?_, fun ha => (hostWrite_eq_fault_iff a b _ _).2 ⟨rfl, ha⟩⟩
  exact ⟨_, hostWrite_of_lt b _ ha, fun c => Memory.read_write s.pbuf a c b, rfl, rfl, rfl, rfl, rfl⟩

/-- A read of a defined cell gives its byte back. -/
theorem readCell_of_defined {s : State} {a : Nat} {x : Byte} (h : s.pbuf.read a = some x) : readCell s a = x := by
  simp only [readCell, h]

/-- Settles O9: the byte given back, and the offset outside the buffer. -/
theorem hostReadChangesNothing : Obligations.HostReadChangesNothing := by
  intro s a rest hh
  rw [step_of_read hh]
  refine ⟨fun ha => ?_, fun ha => (hostRead_eq_fault_iff a _ _).2 ⟨rfl, ha⟩⟩
  exact ⟨_, hostRead_of_lt _ ha, fun x hx => readCell_of_defined (s := s.setHost rest) hx⟩

/-- Settles O10: inputs that fit the ports, and inputs that do not. -/
theorem presentedInputsStandOnThePorts : Obligations.PresentedInputsStandOnThePorts := by
  intro s inp rest hh
  rw [step_of_present hh]
  exact ⟨fun hfit => hostPresent_of_fits _ hfit, fun hfit => (hostPresent_eq_fault_iff inp _ _).2 ⟨rfl, hfit⟩⟩

end Sys2Proof.Machine
end

section
/-! SUPPORT. The checksum update by its bits, its equality with the bit-serial update, that it is injective in the
accumulator, and from these the statements about the checksum function (40_checksum). -/

namespace Sys2Proof.Machine

/-! ### The halves of a 16-bit value -/

theorem getLsbD_hi8 (v : Word16) (i : Nat) : (hi8 v).getLsbD i = (decide (i < 8) && v.getLsbD (8 + i)) :=
  BitVec.getLsbD_extractLsb' ..

theorem getLsbD_widen (b : Byte) (i : Nat) : (b.setWidth 16).getLsbD i = b.getLsbD i := by
  rw [BitVec.getLsbD_setWidth]
  by_cases hi : i < 16
  · simp [hi]
  · simp [hi, BitVec.getLsbD_of_ge b i (by omega)]

/-- A field of a 16-bit value by its bits. -/
theorem extractLsb'_eq_of_getLsbD {v : Word16} {k n : Nat} {x : BitVec n}
    (h : ∀ i, i < n → v.getLsbD (k + i) = x.getLsbD i) : v.extractLsb' k n = x :=
  BitVec.eq_of_getLsbD_eq fun i hi => by rw [BitVec.getLsbD_extractLsb', h i hi, decide_eq_true hi, Bool.true_and]

@[simp] theorem lo8_xor (v w : Word16) : lo8 (v ^^^ w) = lo8 v ^^^ lo8 w := BitVec.extractLsb'_xor

@[simp] theorem hi8_xor (v w : Word16) : hi8 (v ^^^ w) = hi8 v ^^^ hi8 w := BitVec.extractLsb'_xor

@[simp] theorem lo8_widen (b : Byte) : lo8 (b.setWidth 16) = b :=
  extractLsb'_eq_of_getLsbD fun i _ => by rw [getLsbD_widen, Nat.zero_add]

@[simp] theorem hi8_widen (b : Byte) : hi8 (b.setWidth 16) = 0#8 :=
  extractLsb'_eq_of_getLsbD fun i _ => by
    rw [getLsbD_widen, BitVec.getLsbD_of_ge b _ (by omega), BitVec.getLsbD_zero]

theorem lo8_append (y x : Byte) : lo8 (y ++ x) = x := BitVec.extractLsb'_append_eq_right

theorem hi8_append (y x : Byte) : hi8 (y ++ x) = y := BitVec.extractLsb'_append_eq_left

theorem widen_hi8 (v : Word16) : (hi8 v).setWidth 16 = v >>> 8 := by
  apply BitVec.eq_of_toNat_eq
  rw [toNat_widen, toNat_hi8, BitVec.toNat_ushiftRight, Nat.shiftRight_eq_div_pow]

/-- The two halves make up the value. -/
theorem word16_ext_halves {v w : Word16} (hlo : lo8 v = lo8 w) (hhi : hi8 v = hi8 w) : v = w := by
  apply BitVec.eq_of_toNat_eq
  have hlo' := congrArg BitVec.toNat hlo
  have hhi' := congrArg BitVec.toNat hhi
  rw [toNat_lo8, toNat_lo8] at hlo'
  rw [toNat_hi8, toNat_hi8] at hhi'
  omega

/-! ### The update by its bits -/

/-- The byte TMP after the second line of the update (40_checksum R70). -/
def crcTmp (acc : Word16) (b : Byte) : Byte := (b ^^^ lo8 acc) ^^^ ((b ^^^ lo8 acc) <<< 4)

/-- The update in one formula: the accumulator's high byte, and three shifted copies of TMP (40_checksum R70). -/
theorem crcStep_eq (acc : Word16) (b : Byte) :
    crcStep acc b = (hi8 acc).setWidth 16 ^^^ ((crcTmp acc b).setWidth 16 <<< 8) ^^^
      ((crcTmp acc b).setWidth 16 <<< 3) ^^^ ((crcTmp acc b).setWidth 16 >>> 4) := rfl

/-- Bit `i` of the update: the bits that the shift of each of the four terms brings there. -/
theorem getLsbD_crcStep (acc : Word16) (b : Byte) {i : Nat} (hi : i < 16) :
    (crcStep acc b).getLsbD i =
      ((hi8 acc).getLsbD i ^^ (decide (8 ≤ i) && (crcTmp acc b).getLsbD (i - 8)) ^^
        (decide (3 ≤ i) && (crcTmp acc b).getLsbD (i - 3)) ^^ (crcTmp acc b).getLsbD (4 + i)) := by
  simp [crcStep_eq, getLsbD_widen, hi, -BitVec.getLsbD_setWidth, ← decide_not]

/-- Settles O12: in each of the six fields the terms that reach it are the same for all its bits. -/
theorem crcStepBitByBit : Obligations.CrcStepBitByBit := by
  intro acc b t
  have hbit (i : Nat) (hi : i < 16) : (crcStep acc b).getLsbD i =
      ((hi8 acc).getLsbD i ^^ (decide (8 ≤ i) && t.getLsbD (i - 8)) ^^ (decide (3 ≤ i) && t.getLsbD (i - 3)) ^^
        t.getLsbD (4 + i)) := getLsbD_crcStep acc b hi
  clear_value t
  refine ⟨extractLsb'_eq_of_getLsbD fun i hi => ?_, extractLsb'_eq_of_getLsbD fun i hi => ?_, ?_,
    extractLsb'_eq_of_getLsbD fun i hi => ?_, ?_, extractLsb'_eq_of_getLsbD fun i hi => ?_⟩
  all_goals rw [hbit _ (by omega)]
  · interval_cases i <;> simp [hi8]
  · interval_cases i <;> simp [hi8]
  · simp [hi8]
  · interval_cases i <;> simp [hi8]
  · simp [hi8]
  · interval_cases i <;> simp [hi8]

/-! ### The bit-serial update -/

/-- The byte enters the update only by an exclusive-or with the accumulator (40_checksum section 3, property (a)). -/
theorem crcStep_eq_crcStep_xor (acc : Word16) (b : Byte) :
    crcStep acc b = crcStep (acc ^^^ b.setWidth 16) 0#8 := by
  have htmp : crcTmp (acc ^^^ b.setWidth 16) 0#8 = crcTmp acc b := by simp [crcTmp, BitVec.xor_comm]
  simp [crcStep_eq, htmp]

/-- One round by its bits: the shift, and the bits of `0x8408` where the bit shifted out is 1. -/
theorem getLsbD_bitSerialRound (v : Word16) (i : Nat) :
    (bitSerialRound v).getLsbD i = (v.getLsbD (1 + i) ^^ (v.getLsbD 0 && (0x8408#16).getLsbD i)) := by
  rw [bitSerialRound]
  split_ifs with h
  · simp [h]
  · simp [Bool.eq_false_of_not_eq_true h, -BitVec.getLsbD_eq_getElem]

/-- Half of the bit-serial update. -/
def fourRounds (v : Word16) : Word16 := bitSerialRound (bitSerialRound (bitSerialRound (bitSerialRound v)))

/-- Four rounds by their bits: no bit of `0x8408` that a round brings in is shifted out by the next three, so each
of the four bits shifted out acts once (40_checksum section 2). -/
theorem getLsbD_fourRounds (v : Word16) (i : Nat) :
    (fourRounds v).getLsbD i = (decide (i < 16) &&
      (v.getLsbD (4 + i) ^^ (decide (12 ≤ i) && v.getLsbD (i - 12)) ^^
        (decide (7 ≤ i ∧ i < 11) && v.getLsbD (i - 7)) ^^ (decide (i < 4) && v.getLsbD i))) := by
  by_cases hi : i < 16
  · simp only [fourRounds, getLsbD_bitSerialRound]
    interval_cases i <;> simp
  · simp [hi, BitVec.getLsbD_of_ge _ i (Nat.le_of_not_lt hi)]

/-- TMP of a zero byte by its bits: the upper nibble takes up the lower one. -/
theorem getLsbD_crcTmp_zero (v : Word16) (i : Nat) :
    (crcTmp v 0#8).getLsbD i = (decide (i < 8) && (v.getLsbD i ^^ (decide (4 ≤ i) && v.getLsbD (i - 4)))) := by
  by_cases h8 : i < 8
  · simp [crcTmp, lo8, h8, ← decide_not]
  · simp [BitVec.getLsbD_of_ge _ i (Nat.le_of_not_lt h8), h8]

/-- Twice four rounds are the update by a zero byte: the nibbles shifted out are those of TMP. -/
theorem crcStep_zero_eq_fourRounds (v : Word16) : crcStep v 0#8 = fourRounds (fourRounds v) := by
  apply BitVec.eq_of_getLsbD_eq
  intro i hi
  simp only [getLsbD_crcStep v _ hi, getLsbD_hi8, getLsbD_crcTmp_zero, getLsbD_fourRounds]
  interval_cases i <;> simp

theorem crcStep_eq_bitSerialStep (acc : Word16) (b : Byte) : crcStep acc b = bitSerialStep acc b :=
  (crcStep_eq_crcStep_xor acc b).trans (crcStep_zero_eq_fourRounds _)

/-- Settles O13: every update, and the fold of the nine bytes evaluated. -/
theorem crcStepIsTheBitSerialUpdate : Obligations.CrcStepIsTheBitSerialUpdate :=
  ⟨crcStep_eq_bitSerialStep, rfl⟩

/-! ### The update loses nothing -/

/-- A round can be undone: bit 15 of its result says whether a 1 was shifted out. -/
theorem bitSerialRound_injective : Function.Injective bitSerialRound := by
  intro v w h
  have hbit (i : Nat) : (bitSerialRound v).getLsbD i = (bitSerialRound w).getLsbD i := by rw [h]
  simp only [getLsbD_bitSerialRound] at hbit
  have h0 : v.getLsbD 0 = w.getLsbD 0 := by simpa [BitVec.getLsbD_of_ge] using hbit 15
  apply BitVec.eq_of_getLsbD_eq
  intro i hi
  cases i with
  | zero => exact h0
  | succ i => simpa [h0, Nat.add_comm 1 i, - BitVec.getLsbD_eq_getElem] using hbit i

/-- For a fixed byte two accumulators with the same update are equal (40_checksum section 3, property (c)). -/
theorem crcStep_left_injective (b : Byte) : Function.Injective fun acc : Word16 => crcStep acc b := by
  intro v w h
  simp only [crcStep_eq_bitSerialStep, bitSerialStep] at h
  iterate 8 apply bitSerialRound_injective at h
  exact (BitVec.xor_left_inj _).1 h

/-- Settles O14: the byte enters by exclusive-or, and an injective map of the 16-bit values to themselves is
surjective. -/
theorem crcStepBijective : Obligations.CrcStepBijective :=
  ⟨crcStep_eq_crcStep_xor, fun b => Finite.injective_iff_bijective.1 (crcStep_left_injective b)⟩

/-- A byte that cancels the accumulator's low byte leaves its high byte. -/
theorem crcStep_lo8_eq_widen (acc : Word16) : crcStep acc (lo8 acc) = (hi8 acc).setWidth 16 :=
  (crcStep_lo8 acc).trans (widen_hi8 acc).symm

/-- The high byte of an update is zero exactly if the byte is the accumulator's low byte, and then the result is the
accumulator's high byte: the update of the accumulator `y ++ x` by `x` is `y`, and no other has that result. -/
theorem crcStep_eq_widen_iff (acc : Word16) (x y : Byte) :
    crcStep acc x = y.setWidth 16 ↔ x = lo8 acc ∧ y = hi8 acc := by
  constructor
  · intro h
    have happend : crcStep (y ++ x) x = y.setWidth 16 := by
      simpa only [lo8_append, hi8_append] using crcStep_lo8_eq_widen (y ++ x)
    obtain rfl : acc = y ++ x := crcStep_left_injective x (h.trans happend.symm)
    exact ⟨(lo8_append y x).symm, (hi8_append y x).symm⟩
  · rintro ⟨rfl, rfl⟩
    exact crcStep_lo8_eq_widen acc

/-- The update gives zero exactly if the accumulator holds the byte and nothing above it. -/
theorem crcStep_eq_zero_iff (acc : Word16) (b : Byte) : crcStep acc b = 0#16 ↔ acc = b.setWidth 16 := by
  have hzero : crcStep (b.setWidth 16) b = 0#16 := by
    have h := crcStep_lo8_eq_widen (b.setWidth 16)
    rwa [lo8_widen, hi8_widen] at h
  rw [← hzero]
  exact (crcStep_left_injective b).eq_iff

/-- Settles O15: the last update gives zero exactly if `y` is all that the one before left, and that is so exactly
if `x` cancels the low byte of the fold and `y` is its high byte. -/
theorem crcResidueZeroIffOwnChecksum : Obligations.CrcResidueZeroIffOwnChecksum := by
  intro d x y
  have hfold : crcFold (d ++ [x, y]) = crcStep (crcStep (crcFold d) x) y := by simp [crcFold]
  rw [hfold, crcStep_eq_zero_iff]
  exact crcStep_eq_widen_iff (crcFold d) x y

end Sys2Proof.Machine
end

section
/-! SUPPORT. How one changed byte changes the fold, which cells the validity of a checksum depends on, and from these
the statements about the checksum in the buffer (20_memory) and on the 16-bit fields. -/

namespace Sys2Proof.Machine

/-! ### One changed byte -/

/-- For a fixed accumulator two bytes with the same update are equal. -/
theorem crcStep_right_injective (acc : Word16) : Function.Injective (crcStep acc) := by
  intro b b' h
  rw [crcStep_eq_crcStep_xor acc b, crcStep_eq_crcStep_xor acc b'] at h
  have hwide := (BitVec.xor_right_inj acc).1 (crcStep_left_injective 0#8 h)
  simpa using congrArg lo8 hwide

/-- The bytes that follow keep two different accumulators apart. -/
theorem foldl_crcStep_injective (bytes : List Byte) :
    Function.Injective fun acc : Word16 => bytes.foldl crcStep acc := by
  induction bytes with
  | nil => exact Function.injective_id
  | cons b bytes ih => exact ih.comp (crcStep_left_injective b)

/-- Two lists that differ in one byte have different folds (40_checksum section 3). -/
theorem crcFold_ne_of_one_byte (pre post : List Byte) {b b' : Byte} (h : b ≠ b') :
    crcFold (pre ++ b :: post) ≠ crcFold (pre ++ b' :: post) := by
  simp only [crcFold, List.foldl_append, List.foldl_cons]
  exact fun heq => h (crcStep_right_injective _ (foldl_crcStep_injective post heq))

/-! ### The cells a valid checksum depends on -/

/-- The checksum of a buffer whose length cell and region are known is valid exactly if the two cells above the
region hold it (20_memory R44). -/
theorem Memory.checksumValid_iff {m : Memory} {l : Byte} {bytes : List Byte} (extra : Byte) (hl : m.read 1 = some l)
    (hbytes : m.readN 1 (5 + l.toNat) = some bytes) :
    m.ChecksumValid extra ↔ m.read (6 + l.toNat) = some (lo8 (crcFold (bytes ++ [extra]))) ∧
      m.read (7 + l.toNat) = some (hi8 (crcFold (bytes ++ [extra]))) := by
  constructor
  · rintro ⟨l', bytes', hl', hbytes', hck⟩
    obtain rfl : l = l' := Option.some.inj (hl.symm.trans hl')
    obtain rfl : bytes = bytes' := Option.some.inj (hbytes.symm.trans hbytes')
    exact hck
  · exact fun hck => ⟨l, bytes, hl, hbytes, hck⟩

/-- It depends on offsets 1 to 7+LEN alone (20_memory section 5). -/
theorem Memory.ChecksumValid.congr {m m' : Memory} {extra l : Byte} (h : m.ChecksumValid extra)
    (hl : m.read 1 = some l) (hagree : ∀ a, 1 ≤ a → a ≤ 7 + l.toNat → m'.read a = m.read a) :
    m'.ChecksumValid extra := by
  obtain ⟨l', bytes, hl', hbytes, hlo, hhi⟩ := h
  obtain rfl : l = l' := Option.some.inj (hl.symm.trans hl')
  refine ⟨l, bytes, (hagree 1 (by omega) (by omega)).trans hl, ?_, (hagree _ (by omega) (by omega)).trans hlo,
    (hagree _ (by omega) (by omega)).trans hhi⟩
  exact (Memory.readN_congr fun k hk => hagree (1 + k) (by omega) (by omega)).trans hbytes

/-! ### What `CRC` leaves -/

/-- A completed `CRC` leaves a valid checksum: it has written the fold of a region that it does not touch
(20_memory R44). -/
theorem crcWith_checksumValid {p : Params} {extra : Byte} {s t : State} (h : crcWith p extra s = .next t) :
    t.pbuf.ChecksumValid extra := by
  obtain ⟨-, l, bytes, hl, -, hbytes, hframe⟩ := crcWith_next_frame h
  refine ⟨l, bytes, (hframe 1 (by omega) (by omega)).trans hl, ?_, crcWith_checksum_bytes hl hbytes h⟩
  exact (Memory.readN_congr fun k hk => hframe (1 + k) (by omega) (by omega)).trans hbytes

/-- Settles O22: the checksum `CRC` leaves, and the cells it depends on. -/
theorem checksumValidAfterCrc : Obligations.ChecksumValidAfterCrc := by
  intro s t extra h
  have hvalid : t.pbuf.ChecksumValid extra := crcWith_checksumValid h
  refine ⟨hvalid, fun l hl a b ha => hvalid.congr hl fun c hc1 hc2 => ?_⟩
  rw [Memory.read_write, if_neg (by omega)]

/-- Writing the two bytes that stand there changes nothing in a canonical buffer. -/
theorem Memory.write16LE_eq_self {m : Memory} (hm : m.wf) {a : Nat} {w : Word16} (hlo : m.read a = some (lo8 w))
    (hhi : m.read (a + 1) = some (hi8 w)) : m.write16LE a w = m := by
  refine Memory.ext_of_wf (Memory.write16LE_wf hm a w) hm fun c => ?_
  rw [Memory.read_write16LE]
  split_ifs with hc hc'
  · rw [hc, hlo]
  · rw [hc', hhi]
  · rfl

/-- Where the checksum is valid already, `CRC` has nothing to change. -/
theorem crcWith_of_checksumValid {p : Params} {extra l : Byte} {s : State} (hs : s.pbuf.wf)
    (hl : s.pbuf.read 1 = some l) (hcap : l.toNat + 8 ≤ p.pbufCap) (h : s.pbuf.ChecksumValid extra) :
    crcWith p extra s = .next s := by
  obtain ⟨l', bytes, hl', hbytes, hlo, hhi⟩ := h
  obtain rfl : l = l' := Option.some.inj (hl.symm.trans hl')
  have hsame := Memory.write16LE_eq_self hs hlo (by rwa [show 6 + l.toNat + 1 = 7 + l.toNat by omega])
  exact (commit_eq_next_iff s s _).2
    ⟨s.pbuf, (checksumStep_eq_ok_iff p extra _ _).2 ⟨l, bytes, hl, hcap, hbytes, hsame.symm⟩, rfl⟩

/-- Settles O20: the first `CRC` leaves a valid checksum for the length it read. -/
theorem crcIdempotent : Obligations.CrcIdempotent := by
  intro s t extra hwf h
  obtain ⟨-, l, -, hl, hcap, -, hframe⟩ := crcWith_next_frame h
  exact crcWith_of_checksumValid (exec_wf hwf h) ((hframe 1 (by omega) (by omega)).trans hl) hcap
    (crcWith_checksumValid h)

/-! ### A changed cell -/

/-- Replacing a byte of a list by another changes its fold. -/
theorem crcFold_set_ne {bytes : List Byte} {k : Nat} {b b' : Byte} (extra : Byte) (hb : bytes[k]? = some b)
    (h : b' ≠ b) : crcFold (bytes.set k b' ++ [extra]) ≠ crcFold (bytes ++ [extra]) := by
  obtain ⟨hk, rfl⟩ := List.getElem?_eq_some_iff.1 hb
  have hself : bytes ++ [extra] = bytes.take k ++ bytes[k] :: (bytes.drop (k + 1) ++ [extra]) := by
    rw [← List.cons_append, ← List.append_assoc, ← List.drop_eq_getElem_cons hk, List.take_append_drop]
  have hset : bytes.set k b' ++ [extra] = bytes.take k ++ b' :: (bytes.drop (k + 1) ++ [extra]) := by
    rw [List.set_eq_take_append_cons_drop, if_pos hk, List.append_assoc, List.cons_append]
  rw [hself, hset]
  exact crcFold_ne_of_one_byte _ _ h

/-- A byte of a run that was read. -/
theorem Memory.read_of_readN {m : Memory} {a n k : Nat} {bytes : List Byte} (h : m.readN a n = some bytes)
    (hk : k < n) : m.read (a + k) = bytes[k]? := by
  obtain ⟨-, hread⟩ := (Memory.readN_eq_some_iff m a n bytes).1 h
  exact hread k hk

/-- A run with one cell replaced reads with one byte replaced. -/
theorem Memory.readN_of_changed {m m' : Memory} {a n k : Nat} {b : Byte} {bytes : List Byte}
    (h : m.readN a n = some bytes) (hchanged : ∀ c, m'.read c = if c = a + k then some b else m.read c)
    (hk : k < n) : m'.readN a n = some (bytes.set k b) := by
  have hlen := Memory.length_of_readN h
  refine (Memory.readN_eq_some_iff _ _ _ _).2 ⟨by rw [List.length_set, hlen], fun j hj => ?_⟩
  rw [hchanged, List.getElem?_set]
  by_cases hjk : k = j
  · subst hjk
    simp [hlen, hk]
  · rw [if_neg (by omega), if_neg hjk, Memory.read_of_readN h hj]

/-- A valid checksum is no longer valid when one cell of offsets 2 to 7+LEN holds another byte: inside the region the
fold changes and the stored checksum does not, above it the stored checksum changes and the fold does not
(20_memory section 5). -/
theorem Memory.ChecksumValid.not_of_changed {m m' : Memory} {extra l b b' : Byte} {a : Nat}
    (h : m.ChecksumValid extra) (hl : m.read 1 = some l) (ha2 : 2 ≤ a) (ha : a ≤ 7 + l.toNat)
    (hb : m.read a = some b) (hne : b' ≠ b) (hchanged : ∀ c, m'.read c = if c = a then some b' else m.read c) :
    ¬ m'.ChecksumValid extra := by
  obtain ⟨l', bytes, hl', hbytes, hlo, hhi⟩ := h
  obtain rfl : l = l' := Option.some.inj (hl.symm.trans hl')
  have hkept (c : Nat) (hc : c ≠ a) : m'.read c = m.read c := (hchanged c).trans (if_neg hc)
  have hl1 : m'.read 1 = some l := (hkept 1 (by omega)).trans hl
  by_cases hin : a ≤ 5 + l.toNat
  · obtain ⟨k, rfl⟩ : ∃ k, a = 1 + k := ⟨a - 1, by omega⟩
    have hbk : bytes[k]? = some b := (Memory.read_of_readN hbytes (by omega)).symm.trans hb
    rw [Memory.checksumValid_iff extra hl1 (Memory.readN_of_changed hbytes hchanged (by omega)),
      hkept _ (by omega), hkept _ (by omega), hlo, hhi]
    exact fun ⟨hlo', hhi'⟩ => crcFold_set_ne extra hbk hne
      (word16_ext_halves (Option.some.inj hlo').symm (Option.some.inj hhi').symm)
  · have hbytes1 : m'.readN 1 (5 + l.toNat) = some bytes :=
      (Memory.readN_congr fun k hk => hkept (1 + k) (by omega)).trans hbytes
    have ha' : m'.read a = some b' := (hchanged a).trans (if_pos rfl)
    rw [Memory.checksumValid_iff extra hl1 hbytes1, ← hlo, ← hhi]
    rintro ⟨hlo', hhi'⟩
    have hsame : m'.read a = m.read a := by
      obtain rfl | rfl : a = 6 + l.toNat ∨ a = 7 + l.toNat := by omega
      · exact hlo'
      · exact hhi'
    exact hne (Option.some.inj (ha'.symm.trans (hsame.trans hb)))

/-- Settles O23: the host's write changes the one cell. -/
theorem changedCellMakesChecksumStale : Obligations.ChangedCellMakesChecksumStale := by
  intro s t extra l b b' a rest hvalid hl ha2 ha hb hne hh h
  refine hvalid.not_of_changed hl ha2 ha hb hne ?_
  rcases Nat.lt_or_ge a Config.params.pbufCap with hlt | hge
  · obtain ⟨u, hu, hread, -⟩ := (hostWriteSetsOneCell s a b' rest hh).1 hlt
    rw [hu] at h; cases h
    exact hread
  · rw [(hostWriteSetsOneCell s a b' rest hh).2 hge] at h; cases h

/-! ### 16-bit fields -/

/-- Settles O29: the two cells change places, whichever half each holds. -/
theorem swapTurnsA16BitField : Obligations.SwapTurnsA16BitField := by
  intro s a v hcap
  constructor
  · intro hhi hlo
    obtain ⟨t, ht, hfirst, hsecond, -⟩ := exec_swap_two hcap hhi hlo
    exact ⟨t, ht, hfirst, hsecond⟩
  · intro hlo hhi
    obtain ⟨t, ht, hfirst, hsecond, -⟩ := exec_swap_two hcap hlo hhi
    exact ⟨t, ht, hfirst, hsecond⟩

end Sys2Proof.Machine
end

section
/-! SUPPORT. How a report depends on the native order and on the sequence number, what the host's moves for one report
do, and from these the statements about runs of reports (42_report). -/

namespace Sys2Proof.Machine

/-! ### The native order -/

/-- Two legal parameter sets that select the same entries and give the same wire frame report alike from a canonical
buffer (42_report R90). -/
theorem reportWith_congr {p q : Params} {s : State} (hp : p.Legal) (hq : q.Legal) (hs : s.pbuf.wf)
    (hsel : roleSelect p s.inputs = roleSelect q s.inputs)
    (hframe : ∀ sel, wireFrame p s.inputs sel s.seq = wireFrame q s.inputs sel s.seq) :
    reportWith p s = reportWith q s := by
  rcases reportWith_cases hp s with ⟨e, he, hpe⟩ | ⟨sel, m, hpsel, -, hmwf, hmread, hpn⟩
  · rw [hpe, reportWith_of_unselected (hsel ▸ he)]
  · rcases reportWith_cases hq s with ⟨e, he, -⟩ | ⟨sel', m', hqsel, -, hmwf', hmread', hqn⟩
    · rw [← hsel, hpsel] at he; cases he
    · obtain rfl : sel = sel' := Except.ok.inj (hpsel.symm.trans (hsel.trans hqsel))
      have hm : m = m' := Memory.ext_of_wf (hmwf hs) (hmwf' hs) fun c => by rw [hmread, hmread', hframe]
      rw [hpn, hqn, hm, hframe]

/-- The constraints on the parameters leave the native order free (00_scope R4). -/
theorem legal_with_nativeOrder {p : Params} (hp : p.Legal) (order : NativeOrder) :
    { p with nativeOrder := order }.Legal :=
  ⟨hp.sysid_printable, hp.compid_printable, hp.pbufCap_ge, hp.nNodes_ge, hp.spaceW_ge⟩

/-- Settles O36: neither the role mux nor the wire frame looks at the native order. -/
theorem nativeOrderUnobservable : Obligations.NativeOrderUnobservable := fun _ _ hp hs =>
  reportWith_congr (legal_with_nativeOrder hp .big) (legal_with_nativeOrder hp .little) hs rfl fun _ => rfl

/-! ### The sequence number in the frame -/

/-- Settles O37: the counter of the reset state, at offset 2 of the frame and one on. -/
theorem reportStraightAfterReset : Obligations.ReportStraightAfterReset := by
  intro inp hfit hnode
  obtain ⟨t, l, r, -, -, ht, hseq, hframe, -⟩ :=
    reportBuildsTheWireFrame (State.reset.setInputs inp) hfit hnode
  exact ⟨t, ht, hseq, hframe 2 (by omega)⟩

/-- The sequence number stands at offset 2 and enters the checksum, and no other byte of the frame depends on it
(30_encoding R61). -/
theorem wireFrame_getElem?_congr_seq (p : Params) (inp : Inputs) (sel : Selected) (seq seq' : Byte) {a : Nat}
    (h2 : a ≠ 2) (h15 : a ≠ 15) (h16 : a ≠ 16) :
    (wireFrame p inp sel seq)[a]? = (wireFrame p inp sel seq')[a]? := by
  obtain ha | ha : a < 15 ∨ 17 ≤ a := by omega
  · rw [wireFrame_getElem?_of_lt _ _ _ _ ha, wireFrame_getElem?_of_lt _ _ _ _ ha]
    obtain ha | ⟨ha, ha'⟩ : a < 2 ∨ (2 < a ∧ a < 15) := by omega
    · interval_cases a <;> rfl
    · interval_cases a <;> rfl
  · rw [List.getElem?_eq_none ha, List.getElem?_eq_none ha]

/-- Reports with two sequence numbers have two checksums. -/
theorem frameChecksum_ne (p : Params) (inp : Inputs) (sel : Selected) {seq seq' : Byte} (h : seq ≠ seq') :
    frameChecksum p inp sel seq ≠ frameChecksum p inp sel seq' :=
  crcFold_ne_of_one_byte [9] _ h

/-- A completed report leaves in the buffer the frame of the entries the role mux selected. -/
theorem exec_report_frame {s t : State} (h : exec .report s = .next t) :
    ∃ sel, roleSelect Config.params s.inputs = .ok sel ∧ ∀ c, t.pbuf.read c =
      if c < 17 then (wireFrame Config.params s.inputs sel s.seq)[c]? else s.pbuf.read c := by
  obtain ⟨sel, hsel, hbuilt⟩ := exec_report_built h
  obtain ⟨m, hm, -, hread⟩ := buildFrame_eq_ok Config.params_legal s.inputs sel s.seq s.pbuf
  obtain rfl : t.pbuf = m := Except.ok.inj (hbuilt.symm.trans hm)
  exact ⟨sel, hsel, hread⟩

/-- Settles O38: the second report selects the same entries and carries the next sequence number. -/
theorem twoReportsDifferInSequenceAndChecksum : Obligations.TwoReportsDifferInSequenceAndChecksum := by
  intro s t u ht hu
  obtain ⟨sel, hsel, hreadt⟩ := exec_report_frame ht
  obtain ⟨sel', hsel', hreadu⟩ := exec_report_frame hu
  obtain ⟨-, -, hseq, -⟩ := exec_report_next ht
  obtain ⟨hinputs, -, -⟩ := exec_next_frame ht
  rw [hinputs] at hsel' hreadu
  obtain rfl : sel = sel' := Except.ok.inj (hsel.symm.trans hsel')
  have hne : t.seq ≠ s.seq := by
    rw [hseq]
    simp
  have hck := frameChecksum_ne Config.params s.inputs sel hne
  refine ⟨?_, ?_, fun a h2 h15 h16 => ?_⟩
  · rw [hreadt, hreadu]
    exact fun h => hne (Option.some.inj h)
  · by_contra! hsame
    obtain ⟨h15, h16⟩ := hsame
    rw [hreadt, hreadu] at h15 h16
    exact hck (word16_ext_halves (Option.some.inj h15) (Option.some.inj h16))
  · rw [hreadu, hreadt]
    split_ifs with ha
    · exact wireFrame_getElem?_congr_seq _ _ _ _ _ h2 h15 h16
    · rfl

/-! ### Any number of reports -/

/-- The host's moves for one report after the other (assumption log 3). -/
def reportMoves (ins : List Inputs) : List HostMove :=
  ins.flatMap fun inp => [HostMove.present inp, HostMove.command 0x00003#18]

/-- What offset 2 of each frame sent holds, when the report of number `k` carries `base + k` (42_report R92, R99). -/
def sentNumbers (base : Byte) (ins : List Inputs) (k : Nat) : List (Option Byte) :=
  ((ins.zipIdx k).filter fun x => decide (17 ≤ x.1.s6)).map fun x => some (base + BitVec.ofNat 8 x.2)

theorem sentNumbers_cons (base : Byte) (inp : Inputs) (ins : List Inputs) (k : Nat) :
    sentNumbers base (inp :: ins) k =
      (if 17 ≤ inp.s6 then [some (base + BitVec.ofNat 8 k)] else []) ++ sentNumbers base ins (k + 1) := by
  by_cases h : 17 ≤ inp.s6 <;> simp [sentNumbers, h]

theorem run_succ_of_next {s t : State} (k : Nat) (h : step s = .next t) :
    Sys2Proof.core.run (k + 1) s = Sys2Proof.core.run k t := by
  have hcore : Sys2Proof.core.step s = .next t := h
  simp only [Host.Core.run, hcore]

/-- The two steps of presented inputs and a `REPORT`: the counter advances, offset 2 carries its old value, and one
frame with that number is sent exactly if the gate is open. -/
theorem run_present_report {s : State} {inp : Inputs} {rest : List HostMove} (hfit : inp.Fits Config.params)
    (hnode : inp.nodeId < Config.params.nNodes) (hh : s.host = .present inp :: .command 0x00003#18 :: rest) :
    ∃ t frames, (∀ k, Sys2Proof.core.run (k + 2) s = Sys2Proof.core.run k t) ∧ t.host = rest ∧
      t.seq = s.seq + 1#8 ∧ t.writes = s.writes ++ frames ∧
      frames.map (fun f => f[2]?) = (if 17 ≤ inp.s6 then [some s.seq] else []) ∧ t.pbuf.read 2 = some s.seq := by
  have hpresent : step s = .next ((s.setHost (.command 0x00003#18 :: rest)).setInputs inp) :=
    (step_of_present hh).trans (hostPresent_of_fits _ hfit)
  obtain ⟨t, l, r, -, -, ht, hseq, hframe, -, hwrites, -, -, hhost⟩ :=
    reportBuildsTheWireFrame ((s.setHost rest).setInputs inp) hfit hnode
  have hreport : step ((s.setHost (.command 0x00003#18 :: rest)).setInputs inp) = .next t :=
    (step_of_command rfl ((decode_eq_report_iff _).2 rfl)).trans ht
  have hrun (k : Nat) : Sys2Proof.core.run (k + 2) s = Sys2Proof.core.run k t :=
    (run_succ_of_next (k + 1) hpresent).trans (run_succ_of_next k hreport)
  have hnumber : t.pbuf.read 2 = some s.seq := hframe 2 (by omega)
  by_cases hgate : 17 ≤ inp.s6
  · have hsent := hwrites.trans (if_neg (Nat.not_lt.2 hgate))
    exact ⟨t, [_], hrun, hhost, hseq, hsent, (if_pos hgate).symm, hnumber⟩
  · have hdropped := hwrites.trans (if_pos (Nat.lt_of_not_le hgate))
    exact ⟨t, [], hrun, hhost, hseq, hdropped.trans (List.append_nil _).symm, (if_neg hgate).symm, hnumber⟩

/-- The run over the reports from number `k` on. Once a report has been built, offset 2 holds the number before the
counter. -/
theorem run_reportMoves (base : Byte) (ins : List Inputs) (k : Nat) (s : State)
    (hins : ∀ inp ∈ ins, inp.Fits Config.params ∧ inp.nodeId < Config.params.nNodes)
    (hh : s.host = reportMoves ins) (hseq : s.seq = base + BitVec.ofNat 8 k) :
    ∃ t frames, Sys2Proof.core.run (2 * ins.length) s = .next t ∧ t.host = [] ∧
      t.seq = base + BitVec.ofNat 8 (k + ins.length) ∧ t.writes = s.writes ++ frames ∧
      frames.map (fun f => f[2]?) = sentNumbers base ins k ∧
      ((ins = [] → s.pbuf.read 2 = some (s.seq - 1#8)) → t.pbuf.read 2 = some (t.seq - 1#8)) := by
  induction ins generalizing k s with
  | nil => exact ⟨s, [], rfl, hh, hseq, (List.append_nil _).symm, rfl, fun h => h rfl⟩
  | cons inp ins ih =>
    obtain ⟨⟨hfit, hnode⟩, hins'⟩ := List.forall_mem_cons.1 hins
    obtain ⟨t, frames, hrun, hhost, htseq, hwrites, hnumber, hread⟩ := run_present_report hfit hnode hh
    have hnext : t.seq = base + BitVec.ofNat 8 (k + 1) := by
      rw [htseq, hseq, BitVec.ofNat_add, BitVec.add_assoc]
    obtain ⟨u, frames', hrun', hhost', huseq, hwrites', hnumbers, hread'⟩ := ih (k + 1) t hins' hhost hnext
    refine ⟨u, frames ++ frames', (hrun _).trans hrun', hhost', ?_, ?_, ?_, fun _ => hread' fun _ => ?_⟩
    · rw [huseq, List.length_cons, Nat.add_assoc, Nat.add_comm 1]
    · rw [hwrites', hwrites, List.append_assoc]
    · rw [List.map_append, hnumber, hnumbers, sentNumbers_cons, hseq]
    · rw [hread, htseq, BitVec.add_sub_cancel]

/-- Settles O39: the run from number zero on, and the role mux's refusal. -/
theorem consecutiveReportsCountModulo256 : Obligations.ConsecutiveReportsCountModulo256 := by
  refine ⟨fun ins s hins hh => ?_, fun s t hout h => ?_⟩
  · obtain ⟨t, frames, hrun, hhost, hseq, hwrites, hnumbers, hread⟩ :=
      run_reportMoves s.seq ins 0 s hins hh (BitVec.add_zero _).symm
    rw [Nat.zero_add] at hseq
    refine ⟨t, frames, hrun, hhost, hseq, hwrites, hnumbers, fun hne => ?_⟩
    obtain ⟨n, hn⟩ := Nat.exists_eq_add_one_of_ne_zero (mt List.length_eq_zero_iff.1 hne)
    rw [hread fun hnil => absurd hnil hne, hseq, hn, Nat.add_sub_cancel, BitVec.ofNat_add, ← BitVec.add_assoc,
      BitVec.add_sub_cancel]
  · have hrefused : exec .report s = .refused .indexOutOfTable := reportWith_of_unselected (roleSelect_of_outside hout)
    rw [hrefused] at h; cases h

end Sys2Proof.Machine
end
